-- ==== Sys2Proof/Word.lean ====
section
/-! DEFINITION. The bit-vector types of TCORE (R9, R10): every real value on the interface is a
32-bit binary32 pattern, an F16 element is 16 bits, an I8 element is 8 bits. -/

namespace Sys2Proof

/-- A 32-bit word: a binary32 pattern, a command word, a stored `length`, `scale` or `zp` (R9). -/
abbrev Word := BitVec 32

/-- A 16-bit F16 pattern (R9, R100). -/
abbrev Half := BitVec 16

/-- An 8-bit pattern: one byte of element storage, or the pattern of an int8 code (R9, R11). -/
abbrev Byte := BitVec 8

end Sys2Proof
end

