-- ==== Sys2Proof/Config.lean ====
section
/-! DEFINITION. What an implementation of TCORE fixes (R8): the legal ranges of the parameters, the
reference configuration the model's reset state uses, and the open parameters `P_NAN`,
`P_QNONFINITE` and `LATENCY` as free values with no body. -/

namespace Sys2Proof

/-- The least legal `NUM_SLOTS` (R8). -/
def Config.minSlots : Nat := 1

/-- The greatest legal `NUM_SLOTS`: a slot id is 4 bits (R8, R61). -/
def Config.maxSlots : Nat := 16

/-- `MAX_LEN` is below this bound: 0 ≤ MAX_LEN ≤ 2^32 − 1 (R8). -/
def Config.maxLenBound : Nat := 2 ^ 32

/-- `NUM_SLOTS` of the reference configuration (R8).
DESIGN CHOICE (log 1): only `State.reset` uses it; statements hold for every `NUM_SLOTS`. -/
def Config.refNumSlots : Nat := 4

/-- `MAX_LEN` of the reference configuration (R8).
DESIGN CHOICE (log 1): only `State.reset` uses it; statements hold for every `MAX_LEN`. -/
def Config.refMaxLen : Nat := 1024

/-- One draw of `P_NAN` (R8): a sign and a fraction, the fraction being `payload + 1` and so never
zero. Every NaN pattern is one of these and every one of these is a NaN pattern. -/
structure NanDraw where
  sign    : Bool
  payload : Fin 8388607
  deriving DecidableEq, Repr, Inhabited

/-- `P_NAN`: the `n`-th draw of a NaN pattern (R8, R12, decision D19). A free value: no body
(log 2). -/
opaque Config.freeNan (n : Nat) : NanDraw

/-- `P_QNONFINITE(value, s, z)`: the `n`-th draw, an int8 code, for a quotient that is NaN or
infinite (R8, R121, decision D20). A free value: no body (log 3). -/
opaque Config.freeCode (n : Nat) (value s : Word) (z : Int) : Byte

/-- `LATENCY − 1` of the `n`-th draw, for the command with words `h`, `a`, `b`: any natural number,
so that `LATENCY` is any finite integer ≥ 1 (R8, R250, decision D29). A free value: no body
(log 4). -/
opaque Config.extraCycles (n : Nat) (h a b : Word) : Nat

end Sys2Proof
end

