-- ==== Sys2Proof/Syntax.lean ====
section
/-! DEFINITION. The commands of TCORE as terms: the 96-bit command (R60), the representations (R3),
and `Instr`, one constructor per row of the opcode table. Operands are read as R71 reads them:
slots, indices, lengths, half patterns, codes and zero-points are integers, and binary32 operands are
patterns. -/

namespace Sys2Proof

/-- The three numeric representations (R3). The 2-bit code 3 is never held (R22), so it is no
constructor. -/
inductive Rep where
  | f32
  | f16
  | i8
  deriving DecidableEq, Repr, Inhabited

/-- A 96-bit command `CMD96`: the header `H` and the operand words `A` and `B` (R60). -/
structure Command where
  h : Word
  a : Word
  b : Word
  deriving DecidableEq, Repr, Inhabited

/-- Why a command does not decode (R67, R205). Each becomes the one status `ERR_ILLEGAL`. -/
inductive DecodeError where
  /-- The opcode byte is none of the 13 (R66). -/
  | reservedOpcode
  /-- `H[9:0]` is not zero (R63). -/
  | reservedBits
  /-- A field the opcode does not use is not zero (R63). -/
  | unusedField
  /-- CREATE with `rep = 3` (R64). -/
  | reservedRep
  /-- H2F with `B[31:16] ≠ 0` (R64). -/
  | halfOperand
  /-- DQN with `s32(B)` outside [−128, 127] (R64). -/
  | codeOperand
  deriving DecidableEq, Repr

/-- The 13 commands (R64, R70), one constructor per row of the opcode table. -/
inductive Instr where
  /-- `F2H x` (R104). -/
  | f2h (x : Word)
  /-- `H2F h` (R105). -/
  | h2f (h : Nat)
  /-- `QNT t, x` (R124). -/
  | qnt (t : Nat) (x : Word)
  /-- `DQN t, c` (R125). -/
  | dqn (t : Nat) (c : Int)
  /-- `CREATE t, REP, n` (R144). -/
  | create (t : Nat) (rep : Rep) (n : Nat)
  /-- `DESTROY t` (R145). -/
  | destroy (t : Nat)
  /-- `SET t, i, x` (R146). -/
  | set (t : Nat) (i : Nat) (x : Word)
  /-- `GET t, i` (R147). -/
  | get (t : Nat) (i : Nat)
  /-- `WSCALE t, s` (R148). -/
  | wscale (t : Nat) (s : Word)
  /-- `RSCALE t` (R149). -/
  | rscale (t : Nat)
  /-- `WZP t, z` (R150). -/
  | wzp (t : Nat) (z : Int)
  /-- `RZP t` (R151). -/
  | rzp (t : Nat)
  /-- `DENSE tw, tx, tbias` (R171). -/
  | dense (tw tx tbias : Nat)
  deriving DecidableEq, Repr

end Sys2Proof
end

