-- ==== Sys2Proof/WellFormed.lean ====
section
/-! DEFINITION. Which instruction terms are commands: the operand ranges of R71 ("An operand outside
its range is an assembly error, not a command"). -/

namespace Sys2Proof

/-- A slot is `t0` to `t15` (R71). -/
def slotOk (t : Nat) : Bool := decide (t < 16)

/-- `i` and `n` lie in [0, 2^32 − 1] (R71). -/
def indexOk (i : Nat) : Bool := decide (i < 2 ^ 32)

/-- `z` lies in [−2^31, 2^31 − 1] (R71). -/
def zeroPointOk (z : Int) : Bool := decide (-2 ^ 31 ≤ z ∧ z < 2 ^ 31)

/-- `c` lies in [−128, 127] (R71). -/
def codeOk (c : Int) : Bool := decide (-128 ≤ c ∧ c ≤ 127)

/-- `h` lies in [0, 0xFFFF] (R71). -/
def halfOk (h : Nat) : Bool := decide (h < 2 ^ 16)

/-- Every operand lies in its range (R71). A binary32 operand may be any pattern. -/
def Instr.wellFormed : Instr → Bool
  | .f2h _ => true
  | .h2f h => halfOk h
  | .qnt t _ => slotOk t
  | .dqn t c => slotOk t && codeOk c
  | .create t _ n => slotOk t && indexOk n
  | .destroy t => slotOk t
  | .set t i _ => slotOk t && indexOk i
  | .get t i => slotOk t && indexOk i
  | .wscale t _ => slotOk t
  | .rscale t => slotOk t
  | .wzp t z => slotOk t && zeroPointOk z
  | .rzp t => slotOk t
  | .dense tw tx tbias => slotOk tw && slotOk tx && slotOk tbias

end Sys2Proof
end

