-- ==== Sys2Proof/Decode.lean ====
section
/-! DEFINITION. Decoding a 96-bit command (R60 to R68), total over all 2^96 values and rejecting by
name, then the encoder written from the same tables, the opcode table's rows as masks and matches,
and the table-word reading the host uses. -/

namespace Sys2Proof

/-- `H[31:24]`, the opcode byte (R61). -/
def Command.op (c : Command) : BitVec 8 := c.h.extractLsb' 24 8

/-- `H[23:20]` (R61). -/
def Command.ta (c : Command) : BitVec 4 := c.h.extractLsb' 20 4

/-- `H[19:16]` (R61). -/
def Command.tb (c : Command) : BitVec 4 := c.h.extractLsb' 16 4

/-- `H[15:12]` (R61). -/
def Command.tc (c : Command) : BitVec 4 := c.h.extractLsb' 12 4

/-- `H[11:10]` (R61). -/
def Command.rep (c : Command) : BitVec 2 := c.h.extractLsb' 10 2

/-- `H[9:0]` (R61). -/
def Command.res (c : Command) : BitVec 10 := c.h.extractLsb' 0 10

/-- The 2-bit code of a representation: 0 = F32, 1 = F16, 2 = I8 (R22, R61). -/
def Rep.code : Rep → BitVec 2
  | .f32 => 0
  | .f16 => 1
  | .i8 => 2

/-- The representation of a 2-bit code; 3 is reserved (R61). -/
def Rep.ofCode (r : BitVec 2) : Option Rep :=
  match r.toNat with
  | 0 => some .f32
  | 1 => some .f16
  | 2 => some .i8
  | _ => none

/-- Which of the fields of R64's table an opcode uses; every other one must be zero (R63). -/
structure Uses where
  ta  : Bool := false
  tb  : Bool := false
  tc  : Bool := false
  rep : Bool := false
  a   : Bool := false
  b   : Bool := false
  deriving DecidableEq, Repr

/-- R64's table by opcode byte: the fields the opcode uses, or nothing where the opcode is reserved
(R65, R66). -/
def usesOf (op : BitVec 8) : Option Uses :=
  match op.toNat with
  | 0x01 => some { b := true }
  | 0x02 => some { b := true }
  | 0x03 => some { ta := true, b := true }
  | 0x04 => some { ta := true, b := true }
  | 0x10 => some { ta := true, rep := true, a := true }
  | 0x11 => some { ta := true }
  | 0x12 => some { ta := true, a := true, b := true }
  | 0x13 => some { ta := true, a := true }
  | 0x14 => some { ta := true, b := true }
  | 0x15 => some { ta := true }
  | 0x16 => some { ta := true, b := true }
  | 0x17 => some { ta := true }
  | 0x20 => some { ta := true, tb := true, tc := true }
  | _ => none

/-- Every field that the opcode does not use is zero (R63). -/
def Command.unusedZero (c : Command) (u : Uses) : Bool :=
  (u.ta || c.ta == 0) && (u.tb || c.tb == 0) && (u.tc || c.tc == 0) &&
  (u.rep || c.rep == 0) && (u.a || c.a == 0) && (u.b || c.b == 0)

/-- The instruction a command's operands give, with the value checks of R64 and R67: `rep ≠ 3` for
CREATE, `B[31:16] = 0` for H2F, `−128 ≤ s32(B) ≤ 127` for DQN. -/
def Command.operands (c : Command) : Except DecodeError Instr :=
  let t := c.ta.toNat
  match c.op.toNat with
  | 0x01 => .ok (.f2h c.b)
  | 0x02 =>
    if c.b.extractLsb' 16 16 ≠ 0 then .error .halfOperand else .ok (.h2f (c.b.extractLsb' 0 16).toNat)
  | 0x03 => .ok (.qnt t c.b)
  | 0x04 =>
    if -128 ≤ c.b.toInt ∧ c.b.toInt ≤ 127 then .ok (.dqn t c.b.toInt) else .error .codeOperand
  | 0x10 =>
    match Rep.ofCode c.rep with
    | some r => .ok (.create t r c.a.toNat)
    | none => .error .reservedRep
  | 0x11 => .ok (.destroy t)
  | 0x12 => .ok (.set t c.a.toNat c.b)
  | 0x13 => .ok (.get t c.a.toNat)
  | 0x14 => .ok (.wscale t c.b)
  | 0x15 => .ok (.rscale t)
  | 0x16 => .ok (.wzp t c.b.toInt)
  | 0x17 => .ok (.rzp t)
  | 0x20 => .ok (.dense t c.tb.toNat c.tc.toNat)
  | _ => .error .reservedOpcode

/-- R67's decode function: the opcode, then `res`, then the fields the opcode does not use, then the
value checks. -/
def decode (c : Command) : Except DecodeError Instr :=
  match usesOf c.op with
  | none => .error .reservedOpcode
  | some u =>
    if c.res ≠ 0 then .error .reservedBits
    else if !c.unusedZero u then .error .unusedField
    else c.operands

/-- The header `H = (op << 24) | (ta << 20) | (tb << 16) | (tc << 12) | (rep << 10)` (R61). -/
def header (op : BitVec 8) (ta tb tc : Nat) (rep : BitVec 2) : Word :=
  op ++ BitVec.ofNat 4 ta ++ BitVec.ofNat 4 tb ++ BitVec.ofNat 4 tc ++ rep ++ 0#10

/-- The command of an instruction, from R64's and R70's tables. All fields not named are zero. -/
def encode : Instr → Command
  | .f2h x => ⟨header 0x01 0 0 0 0, 0, x⟩
  | .h2f h => ⟨header 0x02 0 0 0 0, 0, BitVec.ofNat 32 h⟩
  | .qnt t x => ⟨header 0x03 t 0 0 0, 0, x⟩
  | .dqn t c => ⟨header 0x04 t 0 0 0, 0, BitVec.ofInt 32 c⟩
  | .create t r n => ⟨header 0x10 t 0 0 r.code, BitVec.ofNat 32 n, 0⟩
  | .destroy t => ⟨header 0x11 t 0 0 0, 0, 0⟩
  | .set t i x => ⟨header 0x12 t 0 0 0, BitVec.ofNat 32 i, x⟩
  | .get t i => ⟨header 0x13 t 0 0 0, BitVec.ofNat 32 i, 0⟩
  | .wscale t s => ⟨header 0x14 t 0 0 0, 0, s⟩
  | .rscale t => ⟨header 0x15 t 0 0 0, 0, 0⟩
  | .wzp t z => ⟨header 0x16 t 0 0 0, 0, BitVec.ofInt 32 z⟩
  | .rzp t => ⟨header 0x17 t 0 0 0, 0, 0⟩
  | .dense tw tx tbias => ⟨header 0x20 tw tx tbias 0, 0, 0⟩

/-- The 96-bit value `C = {B, A, H}` of a command (R68). -/
def Command.bits (c : Command) : BitVec 96 := c.b ++ c.a ++ c.h

/-- The command of a 96-bit value `C`: `H = C[31:0]`, `A = C[63:32]`, `B = C[95:64]` (R68). -/
def Command.ofBits (w : BitVec 96) : Command :=
  ⟨w.extractLsb' 0 32, w.extractLsb' 32 32, w.extractLsb' 64 32⟩

/-- A row of the opcode table (R68): the bits it fixes, their values, and its value check. -/
structure Row where
  mask  : BitVec 96
  value : BitVec 96
  deriving DecidableEq, Repr

/-- The masks and matches of the opcode table's 13 rows, in the table's order (R68). -/
def opcodeRows : List Row :=
  [ ⟨0x00000000FFFFFFFFFFFFFFFF#96, 0x01000000#96⟩, ⟨0xFFFF0000FFFFFFFFFFFFFFFF#96, 0x02000000#96⟩,
    ⟨0x00000000FFFFFFFFFF0FFFFF#96, 0x03000000#96⟩, ⟨0x00000000FFFFFFFFFF0FFFFF#96, 0x04000000#96⟩,
    ⟨0xFFFFFFFF00000000FF0FF3FF#96, 0x10000000#96⟩, ⟨0xFFFFFFFFFFFFFFFFFF0FFFFF#96, 0x11000000#96⟩,
    ⟨0x0000000000000000FF0FFFFF#96, 0x12000000#96⟩, ⟨0xFFFFFFFF00000000FF0FFFFF#96, 0x13000000#96⟩,
    ⟨0x00000000FFFFFFFFFF0FFFFF#96, 0x14000000#96⟩, ⟨0xFFFFFFFFFFFFFFFFFF0FFFFF#96, 0x15000000#96⟩,
    ⟨0x00000000FFFFFFFFFF0FFFFF#96, 0x16000000#96⟩, ⟨0xFFFFFFFFFFFFFFFFFF0FFFFF#96, 0x17000000#96⟩,
    ⟨0xFFFFFFFFFFFFFFFFFF000FFF#96, 0x20000000#96⟩ ]

/-- The rows' `constraints` (R64, R68): CREATE's `rep` is not 3, and DQN's `C[95:72]` are all equal
to `C[71]`. No other row has one. -/
def Row.constraint (r : Row) (c : BitVec 96) : Bool :=
  if r.value = 0x10000000#96 then c.extractLsb' 10 2 != 3
  else if r.value = 0x04000000#96 then
    c.extractLsb' 72 24 == if c.getLsbD 71 then BitVec.allOnes 24 else 0
  else true

/-- `C` selects the row: `C & mask == match` and the row's constraints hold (R68). -/
def Row.selects (r : Row) (c : BitVec 96) : Bool :=
  (c &&& r.mask == r.value) && r.constraint c

/-- The instruction the decoder reads from the table word `w` of `nbits` bits; every bit above
`nbits` is 0, and bit `k` is `C[k]` (R68). -/
def decodeTableWord (nbits w : Nat) : Option Instr :=
  match decode (Command.ofBits (BitVec.ofNat 96 (w % 2 ^ nbits))) with
  | .ok i => some i
  | .error _ => none

end Sys2Proof
end

