-- ==== Sys2Proof/Machine/State.lean ====
section
/-! DEFINITION. The whole architectural state of TCORE (R22, R25, R29): the tensor slots with their
element storage and the command engine; beside it the fixed parameter `MAX_LEN`, the draw counter and
the levels of the input ports at the coming clock edges. State is plain data. -/

namespace Sys2Proof.Machine

/-- Element storage of one slot, as bytes: cell `i` of R25's array `stor[t]` is the four byte
addresses `4 * i` to `4 * i + 3`. The list is in one canonical form, `Memory.wf`. DESIGN CHOICE
(log 5): the byte layout of a cell is not observable (R40). -/
abbrev Memory := List Host.Cell

/-- What a byte of storage that nothing has written reads as. DESIGN CHOICE (log 6): R31 leaves the
storage of a slot unspecified until CREATE fills it with zero. -/
def Memory.fill : Byte := 0

/-- The canonical form: addresses strictly rise and no listed byte is what an unlisted one reads as. -/
abbrev Memory.wf (m : Memory) : Prop :=
  m.Pairwise (fun x y => x.1 < y.1) ∧ ∀ c ∈ m, c.2 ≠ Memory.fill

/-- One tensor slot: the descriptor of R22 and the storage of R25. -/
structure Slot where
  /-- The slot holds a tensor. -/
  valid  : Bool
  /-- The representation. -/
  rep    : Rep
  /-- The element count, 32 bits unsigned. -/
  length : Word
  /-- The quantization scale, a binary32 pattern. -/
  scale  : Word
  /-- The zero-point, 32 bits two's complement. -/
  zp     : Word
  /-- The element cells. -/
  stor   : Memory
  deriving DecidableEq, Repr, Inhabited

/-- A slot after reset: unallocated (R31). DESIGN CHOICE (log 7): the other fields, which R31 leaves
unspecified and unobservable, are F32, 0, 0, 0 and nothing listed. -/
def Slot.reset : Slot :=
  { valid := false, rep := .f32, length := 0, scale := 0, zp := 0, stor := [] }

/-- The status of a response (R200). Codes 5 to 15 are never produced, so they are no constructors. -/
inductive Status where
  /-- The command completed. -/
  | ok
  /-- The command does not decode (R205). -/
  | errIllegal
  /-- A named slot does not exist or is not allocated (R202). -/
  | errSlot
  /-- CREATE on an allocated slot (R203). -/
  | errBusy
  /-- The requested storage cannot be provided (R204). -/
  | errAlloc
  deriving DecidableEq, Repr, Inhabited

/-- The command engine (R29). -/
inductive Engine where
  /-- `IDLE`: no command in hand. -/
  | idle
  /-- `BUSY(c)`: `c` is accepted and executing; its rule is applied at the clock edge that follows
  `left` more edges (R242, R250). -/
  | busy (c : Command) (left : Nat)
  /-- `RESP(st, d)`: the response is offered. -/
  | resp (st : Status) (d : Word)
  deriving DecidableEq, Repr, Inhabited

/-- The levels of the input ports at one rising edge of `clk` (R240). -/
structure PortIn where
  rst      : Bool
  cmdValid : Bool
  cmd      : Command
  rspReady : Bool
  deriving DecidableEq, Repr, Inhabited

/-- Every input low: the host neither resets, offers a command nor takes a response. -/
def PortIn.idle : PortIn := ⟨false, false, ⟨0, 0, 0⟩, false⟩

/-- Faults. TCORE has no traps and every command ends with a response (R210, R251), so nothing stops
the machine and there is no constructor: an error is a status in a response. -/
inductive Fault where
  deriving DecidableEq, Repr

/-- Refusals. -/
inductive Refusal where
  /-- An instruction that the model gives no meaning yet, raised by its arm of `exec` only. Safe: the
  model stops where the hardware goes on. No arm raises it. -/
  | notModelled (mnemonic : String)
  deriving DecidableEq, Repr

/-- The state of TCORE. -/
structure State where
  /-- The tensor slots, slot `t` at place `t`; `NUM_SLOTS` is how many there are (R8, R22). -/
  slots   : List Slot
  /-- The parameter `MAX_LEN`, fixed for the machine (R8). -/
  maxLen  : Nat
  /-- The command engine (R29). -/
  engine  : Engine
  /-- `rst` was 1 at the last rising edge (R240's `cmd_ready`). -/
  rstHeld : Bool
  /-- MODEL's own (logs 2, 3, 4): how many draws of the open parameters have been taken. -/
  draws   : Nat
  /-- MODEL's own (log 8): the input ports at the coming rising edges, the next one first; after
  them every input is low. -/
  inputs  : List PortIn
  deriving DecidableEq, Repr

/-- `NUM_SLOTS` (R8). -/
def State.numSlots (s : State) : Nat := s.slots.length

/-- The reset state with given parameters (R31, R231): `IDLE`, every slot unallocated. -/
def State.resetWith (numSlots maxLen : Nat) : State :=
  { slots := List.replicate numSlots Slot.reset, maxLen := maxLen, engine := .idle,
    rstHeld := false, draws := 0, inputs := [] }

/-- The machine right after reset (R31, R233), in the reference configuration of R8 (log 1). -/
def State.reset : State := State.resetWith Config.refNumSlots Config.refMaxLen

/-- How a step or a meaning ends. -/
abbrev Result := Host.Outcome State Fault Refusal

end Sys2Proof.Machine
end

