-- ==== Sys2Proof/Machine/Flags.lean ====
section
/-! DEFINITION. TCORE has no flags, condition codes or floating-point exception flags (R28): no
command computes one. What a command reports beside its data is the 4-bit status code of R200. -/

namespace Sys2Proof.Machine

/-- The 4-bit code of a status (R200). -/
def Status.code : Status → BitVec 4
  | .ok => 0
  | .errIllegal => 1
  | .errSlot => 2
  | .errBusy => 3
  | .errAlloc => 4

end Sys2Proof.Machine
end

