-- ==== Sys2Proof/Machine/Operands.lean ====
section
/-! DEFINITION. How operand and stored patterns are read as integers and back (R11), and the element
width of a representation (R140). -/

namespace Sys2Proof.Machine

/-- `s32(v)`: the pattern as a two's-complement integer (R11). -/
def s32 (v : Word) : Int := v.toInt

/-- `u32(v)`: the pattern as an unsigned integer (R11). -/
def u32 (v : Word) : Nat := v.toNat

/-- `wrap8(n)`: the integer in [−128, 127] congruent to `n` modulo 256 (R11). -/
def wrap8 (n : Int) : Int := n.bmod 256

/-- `bits8(c)`: the 8-bit two's-complement pattern of `c` (R11). -/
def bits8 (c : Int) : Byte := BitVec.ofInt 8 c

/-- `sext_32` of an 8-bit pattern (R11). -/
def sext8 (b : Byte) : Word := b.signExtend 32

/-- `zext_32` of a 16-bit pattern (R11). -/
def zext16 (h : Half) : Word := h.zeroExtend 32

/-- The element width of a representation, in bytes (R41, R140). -/
def repWidth : Rep → Nat
  | .f32 => 4
  | .f16 => 2
  | .i8 => 1

end Sys2Proof.Machine
end

