-- ==== Sys2Proof/Machine/Binary32.lean ====
section
/-! DEFINITION. The binary32 primitives of R12: the fields of a pattern, its exact value, and addition,
multiplication, division and integer conversion, each computed exactly and rounded once to nearest,
ties to even, with subnormals honoured (decision D18).

Exact values are counted in units of 2^−149, the least subnormal: every finite pattern is a whole
number of units. An operation answers `none` where IEEE-754 gives a NaN; `settleNan` then takes a draw
of `P_NAN` (decision D19). What IEEE-754 defines is PRESUMED (log 9). -/

namespace Sys2Proof.Machine

/-- `sign(x) = x[31]` (R12). -/
def sign32 (x : Word) : Bool := x.getLsbD 31

/-- `bexp(x) = x[30:23]` (R12). -/
def bexp (x : Word) : Nat := (x.extractLsb' 23 8).toNat

/-- `frac(x) = x[22:0]` (R12). -/
def frac (x : Word) : Nat := (x.extractLsb' 0 23).toNat

/-- `isNaN32(x)` (R12). -/
def isNaN32 (x : Word) : Bool := bexp x == 255 && frac x != 0

/-- `isInf32(x)` (R12). -/
def isInf32 (x : Word) : Bool := bexp x == 255 && frac x == 0

/-- The pattern is +0.0 or −0.0. -/
def isZero32 (x : Word) : Bool := bexp x == 0 && frac x == 0

/-- |val(x)| of a finite pattern, in units of 2^−149 (R12): the fraction itself where `bexp = 0`, else
the fraction with its leading one, scaled. -/
def magUnits (x : Word) : Nat :=
  if bexp x = 0 then frac x else (2 ^ 23 + frac x) * 2 ^ (bexp x - 1)

/-- val(x) of a finite pattern, in units of 2^−149 (R12). -/
def units (x : Word) : Int := if sign32 x then -(magUnits x : Int) else magUnits x

/-- The 31 low bits of an infinity: exponent field 255, fraction 0. -/
def infMag : Nat := 255 * 2 ^ 23

/-- The pattern with the given sign and the given 31 low bits. -/
def pack32 (sgn : Bool) (mag : Nat) : Word := BitVec.ofNat 32 ((if sgn then 2 ^ 31 else 0) + mag)

/-- `num / den` rounded to the nearest integer, ties to even. -/
def roundDiv (num den : Nat) : Nat :=
  let q := num / den
  let r := num % den
  if 2 * r < den ∨ (2 * r = den ∧ q % 2 = 0) then q else q + 1

/-- The 31 low bits of the magnitude `num / den` units rounded once to binary32, to nearest, ties to
even. `shift` places the last fraction bit: 0 for subnormals and the first normal exponent, so the low
bits are the rounded count itself; above that each step of the exponent field doubles the count a
fraction step is worth. A round up past the fraction carries into the exponent field, and what reaches
past the greatest finite pattern is infinity. -/
def roundMag (num den : Nat) : Nat :=
  let shift := (num / den).log2 - 23
  min infMag (shift * 2 ^ 23 + roundDiv num (den * 2 ^ shift))

/-- The exact sum rounded once (R12). `none`: a NaN operand, or infinities of opposite sign. An exact
zero sum is −0.0 only where both operands have the sign set. -/
def addRounded (a b : Word) : Option Word :=
  if isNaN32 a || isNaN32 b then none
  else if isInf32 a then
    if isInf32 b && sign32 a != sign32 b then none else some (pack32 (sign32 a) infMag)
  else if isInf32 b then some (pack32 (sign32 b) infMag)
  else
    let k := units a + units b
    if k = 0 then some (pack32 (sign32 a && sign32 b) 0)
    else some (pack32 (decide (k < 0)) (roundMag k.natAbs 1))

/-- The exact product rounded once (R12). `none`: a NaN operand, or zero times infinity. -/
def mulRounded (a b : Word) : Option Word :=
  let sgn := sign32 a != sign32 b
  if isNaN32 a || isNaN32 b then none
  else if isInf32 a || isInf32 b then
    if isZero32 a || isZero32 b then none else some (pack32 sgn infMag)
  else some (pack32 sgn (roundMag (magUnits a * magUnits b) (2 ^ 149)))

/-- The exact quotient rounded once (R12). `none`: a NaN operand, 0 / 0, or infinity by infinity. -/
def divRounded (a b : Word) : Option Word :=
  let sgn := sign32 a != sign32 b
  if isNaN32 a || isNaN32 b then none
  else if isInf32 a then
    if isInf32 b then none else some (pack32 sgn infMag)
  else if isInf32 b then some (pack32 sgn 0)
  else if isZero32 b then
    if isZero32 a then none else some (pack32 sgn infMag)
  else some (pack32 sgn (roundMag (magUnits a * 2 ^ 149) (magUnits b)))

/-- `i2f32(n)`: the nearest binary32 pattern, ties to even (R12). -/
def i2f32 (n : Int) : Word := pack32 (decide (n < 0)) (roundMag (n.natAbs * 2 ^ 149) 1)

/-- `trunc(x)` of a finite pattern: the fraction of the value discarded, toward zero (R12). -/
def trunc32 (x : Word) : Int :=
  if sign32 x then -((magUnits x / 2 ^ 149 : Nat) : Int) else (magUnits x / 2 ^ 149 : Nat)

/-- The pattern of a draw of `P_NAN`: exponent field 255 and a fraction that is not 0 (R8). -/
def nanPattern (d : NanDraw) : Word := pack32 d.sign (infMag + (d.payload.val + 1))

/-- A NaN result is replaced by a draw of `P_NAN`, the counter moving on; any other result takes no
draw (R12). -/
def settleNan (r : Option Word) (k : Nat) : Word × Nat :=
  match r with
  | some w => (w, k)
  | none => (nanPattern (Config.freeNan k), k + 1)

/-- `fadd32(a, b)` with the draw counter (R12). -/
def fadd32 (a b : Word) (k : Nat) : Word × Nat := settleNan (addRounded a b) k

/-- `fmul32(a, b)` with the draw counter (R12). -/
def fmul32 (a b : Word) (k : Nat) : Word × Nat := settleNan (mulRounded a b) k

/-- `fdiv32(a, b)` with the draw counter (R12). -/
def fdiv32 (a b : Word) (k : Nat) : Word × Nat := settleNan (divRounded a b) k

end Sys2Proof.Machine
end

