-- ==== Sys2Proof/Machine/Ops.lean ====
section
/-! DEFINITION. The named operations over storage, slots and the engine: byte and element access
(R13, R41), the zero fill of CREATE (R144), the slot check (R152, R202), ending a command with a
response or an error (R14, R208), and the output ports (R240). -/

namespace Sys2Proof.Machine

/-! ### Storage -/

/-- The byte at address `a`. -/
def Memory.readByte : Memory → Nat → Byte
  | [], _ => Memory.fill
  | (k, v) :: m, a => if k = a then v else Memory.readByte m a

/-- Storage with byte `v` at address `a`, kept in the canonical form: writing what an unlisted byte
reads as removes the entry. -/
def Memory.writeByte : Memory → Nat → Byte → Memory
  | [], a, v => if v = Memory.fill then [] else [(a, v)]
  | (k, w) :: m, a, v =>
    if a < k then (if v = Memory.fill then (k, w) :: m else (a, v) :: (k, w) :: m)
    else if a = k then (if v = Memory.fill then m else (a, v) :: m)
    else (k, w) :: Memory.writeByte m a v

/-- The `n` bytes from address `a` as one number, the byte at `a` least significant. DESIGN CHOICE
(log 5): R40 defines no byte order, and none is observable. -/
def Memory.readBytes (m : Memory) (a : Nat) : Nat → Nat
  | 0 => 0
  | n + 1 => (m.readByte a).toNat + 256 * Memory.readBytes m (a + 1) n

/-- Storage with the low `n` bytes of `v` written from address `a`, the least significant first
(log 5). -/
def Memory.writeBytes (m : Memory) (a : Nat) : Nat → Nat → Memory
  | 0, _ => m
  | n + 1, v => Memory.writeBytes (m.writeByte a (BitVec.ofNat 8 v)) (a + 1) n (v / 256)

/-- The address of the first byte of cell `i`: a cell holds any element, so it is four bytes wide
(R25; log 5). -/
def cellAddr (i : Nat) : Nat := 4 * i

/-- `MemRead((t, i), n)` on slot `t`'s storage: element `i`, `n` bytes wide, as a number (R13). -/
def memRead (m : Memory) (i n : Nat) : Nat := m.readBytes (cellAddr i) n

/-- `MemWrite((t, i), n, v)` on slot `t`'s storage (R13). -/
def memWrite (m : Memory) (i n v : Nat) : Memory := m.writeBytes (cellAddr i) n v

/-- The byte address lies in one of the elements `0 .. n − 1` of width `w`. -/
def inElements (n w a : Nat) : Bool := decide (a / 4 < n ∧ a % 4 < w)

/-- CREATE's zero fill of cells `0 .. n − 1` at width `w` (R144), all at once: the entries of those
elements go, since an unlisted byte reads as zero. -/
def zeroFill (m : Memory) (n w : Nat) : Memory := m.filter (fun c => !inElements n w c.1)

/-! ### Slots -/

/-- The slot `t`, where it exists (`t < NUM_SLOTS`) and is allocated. -/
def State.allocated (s : State) (t : Nat) : Option Slot :=
  match s.slots[t]? with
  | some sl => if sl.valid then some sl else none
  | none => none

/-- The state with slot `t` replaced. -/
def State.setSlot (s : State) (t : Nat) (sl : Slot) : State := { s with slots := s.slots.set t sl }

/-- The state with the draw counter at `k`. -/
def State.setDraws (s : State) (k : Nat) : State := { s with draws := k }

/-- The state with the engine in `e`. -/
def State.setEngine (s : State) (e : Engine) : State := { s with engine := e }

/-! ### Ending a command -/

/-- `respond(v)`: status `OK` and data `v` (R14). -/
def respond (v : Word) (s : State) : Result := .next (s.setEngine (.resp .ok v))

/-- `raise E()`: the shared way every error ends a command (R14, R208, R210): status `E`, data
`0x00000000`, and nothing else changes. TCORE has no traps, so this is the whole of taking one, and
there is nothing to return from (R211). -/
def raise (e : Status) (s : State) : Result := .next (s.setEngine (.resp e 0))

/-- The slot check of R152 and R202: `ERR_SLOT` where slot `t` does not exist or is not allocated,
before anything is read or written. -/
def withSlot (t : Nat) (s : State) (f : Slot → Result) : Result :=
  match s.allocated t with
  | some sl => f sl
  | none => raise .errSlot s

/-! ### Output ports (R240) -/

/-- `cmd_ready`: the engine is `IDLE` and `rst` was 0 at the last edge. -/
def State.cmdReady (s : State) : Bool :=
  match s.engine with
  | .idle => !s.rstHeld
  | _ => false

/-- `rsp_valid`: the engine is `RESP`. -/
def State.rspValid (s : State) : Bool :=
  match s.engine with
  | .resp _ _ => true
  | _ => false

/-- `rsp_status` and `rsp_data` while `rsp_valid` is 1; the spec gives them no value otherwise. -/
def State.rspPort (s : State) : Option (BitVec 4 × Word) :=
  match s.engine with
  | .resp st d => some (st.code, d)
  | _ => none

end Sys2Proof.Machine
end

