-- ==== Sys2Proof/Machine/Half.lean ====
section
/-! DEFINITION. The half-float codec: `enc16`, `dec16` and the commands F2H and H2F (R100 to R108). -/

namespace Sys2Proof.Machine

/-- `enc16(x)` (R101): the exponent rebased from 127 to 15, underflow to signed zero, overflow to the
infinity pattern, the mantissa truncated. -/
def enc16 (x : Word) : Half :=
  let sgn : Half := if sign32 x then 0x8000 else 0
  let ne : Int := (bexp x : Int) - 127 + 15
  if ne ≤ 0 then sgn
  else if ne ≥ 31 then sgn ||| 0x7C00
  else sgn ||| (BitVec.ofInt 16 ne <<< 10) ||| (x.extractLsb' 13 10).zeroExtend 16

/-- `dec16(h)` (R103): exponent field 0 gives signed zero; any other, 31 too (R106), is rebased. -/
def dec16 (h : Half) : Word :=
  let sgn : Word := if h.getLsbD 15 then 0x80000000 else 0
  let e : Nat := (h.extractLsb' 10 5).toNat
  let m : Word := (h.extractLsb' 0 10).zeroExtend 32
  if e = 0 then sgn else sgn ||| (BitVec.ofNat 32 (e + 127 - 15) <<< 23) ||| (m <<< 13)

/-- F2H: `respond(zext_32(enc16(B)))` (R104). -/
def execF2h (x : Word) (s : State) : Result := respond (zext16 (enc16 x)) s

/-- H2F: `respond(dec16(B[15:0]))` (R105). -/
def execH2f (h : Nat) (s : State) : Result := respond (dec16 (BitVec.ofNat 16 h)) s

end Sys2Proof.Machine
end

