-- ==== Sys2Proof/Machine/Quant.lean ====
section
/-! DEFINITION. The quantized-value codec: `quant`, `dequant` and the commands QNT and DQN
(R120 to R129). Each function takes the draw counter and gives it back. -/

namespace Sys2Proof.Machine

/-- `quant(x, s, z)` (R121): a NaN or infinite quotient gives a draw of `P_QNONFINITE`; any other is
truncated toward zero, `z` is added exactly, and the sum wraps to 8 bits (R129). -/
def quant (x s : Word) (z : Int) (k : Nat) : Int × Nat :=
  let q := fdiv32 x s k
  if isNaN32 q.1 || isInf32 q.1 then ((Config.freeCode q.2 x s z).toInt, q.2 + 1)
  else (wrap8 (trunc32 q.1 + z), q.2)

/-- `dequant(c, s, z)` (R123): `c − z` exactly, one conversion to binary32, one rounded multiply. -/
def dequant (c : Int) (s : Word) (z : Int) (k : Nat) : Word × Nat := fmul32 (i2f32 (c - z)) s k

/-- QNT (R124): the code of `x` against slot `t`'s parameters, sign-extended. -/
def execQnt (t : Nat) (x : Word) (s : State) : Result :=
  withSlot t s fun sl =>
    let c := quant x sl.scale (s32 sl.zp) s.draws
    respond (sext8 (bits8 c.1)) (s.setDraws c.2)

/-- DQN (R125): the value of code `c` against slot `t`'s parameters. -/
def execDqn (t : Nat) (c : Int) (s : State) : Result :=
  withSlot t s fun sl =>
    let v := dequant c sl.scale (s32 sl.zp) s.draws
    respond v.1 (s.setDraws v.2)

end Sys2Proof.Machine
end

