-- ==== Sys2Proof/Machine/Tensor.lean ====
section
/-! DEFINITION. The tensor container: `getval`, `setval` and the commands CREATE, DESTROY, SET, GET,
WSCALE, RSCALE, WZP and RZP (R140 to R153). -/

namespace Sys2Proof.Machine

/-- `getval(t, i)` on slot `t` (R141): an index out of range gives +0.0 and reads no storage. -/
def getval (sl : Slot) (i : Nat) (k : Nat) : Word × Nat :=
  if u32 sl.length ≤ i then (0, k)
  else
    match sl.rep with
    | .f32 => (BitVec.ofNat 32 (memRead sl.stor i 4), k)
    | .f16 => (dec16 (BitVec.ofNat 16 (memRead sl.stor i 2)), k)
    | .i8 => dequant (s32 (sext8 (BitVec.ofNat 8 (memRead sl.stor i 1)))) sl.scale (s32 sl.zp) k

/-- The element pattern that a write of `x` to slot `t` stores (R142). -/
def storedPattern (sl : Slot) (x : Word) (k : Nat) : Nat × Nat :=
  match sl.rep with
  | .f32 => (x.toNat, k)
  | .f16 => ((enc16 x).toNat, k)
  | .i8 =>
    let c := quant x sl.scale (s32 sl.zp) k
    ((bits8 c.1).toNat, c.2)

/-- `setval(t, i, x)` on slot `t` (R142): an index out of range writes nothing and takes no draw. -/
def setval (sl : Slot) (i : Nat) (x : Word) (k : Nat) : Slot × Nat :=
  if u32 sl.length ≤ i then (sl, k)
  else
    let p := storedPattern sl x k
    ({ sl with stor := memWrite sl.stor i (repWidth sl.rep) p.1 }, p.2)

/-- The slot a successful CREATE leaves (R32, R144): `scale` 1.0, `zp` 0, the elements zero. -/
def Slot.created (sl : Slot) (rep : Rep) (n : Nat) : Slot :=
  { valid := true, rep := rep, length := BitVec.ofNat 32 n, scale := 0x3F800000, zp := 0,
    stor := zeroFill sl.stor n (repWidth rep) }

/-- CREATE (R144): `ERR_SLOT`, then `ERR_BUSY`, then `ERR_ALLOC`, before anything is written (R207). -/
def execCreate (t : Nat) (rep : Rep) (n : Nat) (s : State) : Result :=
  match s.slots[t]? with
  | none => raise .errSlot s
  | some sl =>
    if sl.valid then raise .errBusy s
    else if s.maxLen < n then raise .errAlloc s
    else respond 0 (s.setSlot t (sl.created rep n))

/-- DESTROY (R145): `valid` is cleared, and the fields and the storage become unobservable. -/
def execDestroy (t : Nat) (s : State) : Result :=
  withSlot t s fun sl => respond 0 (s.setSlot t { sl with valid := false })

/-- SET (R146). -/
def execSet (t i : Nat) (x : Word) (s : State) : Result :=
  withSlot t s fun sl =>
    let r := setval sl i x s.draws
    respond 0 ((s.setSlot t r.1).setDraws r.2)

/-- GET (R147). -/
def execGet (t i : Nat) (s : State) : Result :=
  withSlot t s fun sl =>
    let v := getval sl i s.draws
    respond v.1 (s.setDraws v.2)

/-- WSCALE (R148). -/
def execWscale (t : Nat) (v : Word) (s : State) : Result :=
  withSlot t s fun sl => respond 0 (s.setSlot t { sl with scale := v })

/-- RSCALE (R149). -/
def execRscale (t : Nat) (s : State) : Result := withSlot t s fun sl => respond sl.scale s

/-- WZP (R150). -/
def execWzp (t : Nat) (z : Int) (s : State) : Result :=
  withSlot t s fun sl => respond 0 (s.setSlot t { sl with zp := BitVec.ofInt 32 z })

/-- RZP (R151). -/
def execRzp (t : Nat) (s : State) : Result := withSlot t s fun sl => respond sl.zp s

end Sys2Proof.Machine
end

