-- ==== Sys2Proof/Machine/Dense.lean ====
section
/-! DEFINITION. The dense-forward pipeline: `dense` and the command DENSE (R170 to R176). -/

namespace Sys2Proof.Machine

/-- The running sum of R170 after the elements `0 .. n − 1` in ascending order, from +0.0: per element
the weight is decoded, then the input, then one rounded product and one rounded sum (R172). -/
def denseSum (w x : Slot) (k : Nat) : Nat → Word × Nat
  | 0 => (0, k)
  | n + 1 =>
    let acc := denseSum w x k n
    let wv := getval w n acc.2
    let xv := getval x n wv.2
    let p := fmul32 wv.1 xv.1 xv.2
    fadd32 acc.1 p.1 p.2

/-- `dense(tw, tx, tbias)` (R170): the input's length sets the trip count, and the bias is added
last. -/
def dense (w x bias : Slot) (k : Nat) : Word × Nat :=
  let acc := denseSum w x k (u32 x.length)
  let b := getval bias 0 acc.2
  fadd32 acc.1 b.1 b.2

/-- DENSE (R171): all three slots are checked before anything is read. -/
def execDense (tw tx tbias : Nat) (s : State) : Result :=
  withSlot tw s fun w => withSlot tx s fun x => withSlot tbias s fun b =>
    let v := dense w x b s.draws
    respond v.1 (s.setDraws v.2)

end Sys2Proof.Machine
end

