-- ==== Sys2Proof/Machine/Dispatch.lean ====
section
/-! DEFINITION. What each command does: one arm per constructor of `Instr`, each one call of its
meaning. -/

namespace Sys2Proof.Machine

/-- The rule of instruction `i` applied to the state (R242), ending in a response. -/
def exec (i : Instr) (s : State) : Host.Outcome State Fault Refusal :=
  match i with
  | .f2h x => Sys2Proof.Machine.execF2h x s
  | .h2f h => Sys2Proof.Machine.execH2f h s
  | .qnt t x => Sys2Proof.Machine.execQnt t x s
  | .dqn t c => Sys2Proof.Machine.execDqn t c s
  | .create t rep n => Sys2Proof.Machine.execCreate t rep n s
  | .destroy t => Sys2Proof.Machine.execDestroy t s
  | .set t j x => Sys2Proof.Machine.execSet t j x s
  | .get t j => Sys2Proof.Machine.execGet t j s
  | .wscale t v => Sys2Proof.Machine.execWscale t v s
  | .rscale t => Sys2Proof.Machine.execRscale t s
  | .wzp t z => Sys2Proof.Machine.execWzp t z s
  | .rzp t => Sys2Proof.Machine.execRzp t s
  | .dense tw tx tbias => Sys2Proof.Machine.execDense tw tx tbias s

end Sys2Proof.Machine
end

