-- ==== Sys2Proof/Machine/Edge.lean ====
section
/-! DEFINITION. One rising edge of `clk` (R230, R241, R242): the input ports are sampled, and then reset,
acceptance, execution or delivery happens. -/

namespace Sys2Proof.Machine

/-- The input ports at the coming edge (R240; log 8). -/
def State.portIn (s : State) : PortIn := s.inputs.headD PortIn.idle

/-- The state with the coming edge's inputs taken: they are used up, and `rst`'s level is kept for
`cmd_ready` (R240). -/
def State.sampled (s : State) : State :=
  { s with inputs := s.inputs.tail, rstHeld := s.portIn.rst }

/-- Reset (R230 to R232): `IDLE`, every slot unallocated, a command in hand abandoned. DESIGN CHOICE
(log 7): every other field of a slot, unspecified and unobservable, goes to `Slot.reset`'s value. -/
def resetEdge (s : State) : State :=
  { s with slots := s.slots.map (fun _ => Slot.reset), engine := .idle }

/-- Acceptance (R241, R242): the three words are captured and `LATENCY` is drawn (R250). -/
def accept (c : Command) (s : State) : State :=
  { s with engine := .busy c (Config.extraCycles s.draws c.h c.a c.b), draws := s.draws + 1 }

/-- `BUSY(c)` to `RESP(st, d)` (R242): the command is decoded and its rule applied; one that does not
decode ends with `ERR_ILLEGAL` before anything else is checked (R205, R207). -/
def runCommand (c : Command) (s : State) : Result :=
  match decode c with
  | .ok i => exec i s
  | .error _ => raise .errIllegal s

/-- One rising edge of `clk` (R230, R241, R242). -/
def edge (s : State) : Result :=
  let p := s.portIn
  let s' := s.sampled
  if p.rst then .next (resetEdge s')
  else
    match s.engine with
    | .idle => if s.cmdReady && p.cmdValid then .next (accept p.cmd s') else .next s'
    | .busy c 0 => runCommand c s'
    | .busy c (n + 1) => .next (s'.setEngine (.busy c n))
    | .resp _ _ => if p.rspReady then .next (s'.setEngine .idle) else .next s'

/-- The state in which command `c` is accepted and the coming edge, with every input low, applies its
rule (log 10). -/
def State.loadCommand (s : State) (c : Command) : State :=
  { s with engine := .busy c 0, inputs := PortIn.idle :: s.inputs }

end Sys2Proof.Machine
end

