-- ==== Sys2Proof/Machine/Step.lean ====
section
/-! DEFINITION. The step of the machine, one rising edge of `clk`, and the placing of a command for the
next step. -/

namespace Sys2Proof.Machine

/-- One step: one rising edge of `clk` (R241, R242). -/
def step (s : State) : Host.Outcome State Fault Refusal := edge s

/-- The state whose very next step runs the command with bits `w` (R68; log 10). -/
def State.withFetchWord (s : State) (nbits w : Nat) : State :=
  s.loadCommand (Command.ofBits (BitVec.ofNat 96 (w % 2 ^ nbits)))

end Sys2Proof.Machine
end

