-- ==== Sys2Proof/Machine/Assembler.lean ====
section
/-! DEFINITION. The assembler of R70 to R72: the written form of a command, the spelling of its operands,
and the two pseudo-instructions. It has no effect in the hardware (decision D37): a host uses it to
write the commands it issues. Text is a list of characters. `none` is an assembly error. -/

namespace Sys2Proof.Machine

/-- The text with no space at either end. -/
def trim (l : List Char) : List Char :=
  ((l.dropWhile Char.isWhitespace).reverse.dropWhile Char.isWhitespace).reverse

/-- The pieces of a text between commas. -/
def splitCommas : List Char → List (List Char)
  | [] => [[]]
  | c :: l =>
    if c = ',' then [] :: splitCommas l
    else
      match splitCommas l with
      | [] => [[c]]
      | p :: ps => (c :: p) :: ps

/-- The value of a digit of a base up to 16. A letter counts in either case (DESIGN CHOICE, log 11). -/
def digitValue (base : Nat) (c : Char) : Option Nat :=
  (List.range base).find? fun d => Nat.digitChar d == c.toLower

/-- The number that one or more digits of a base write. Leading zeros are taken (DESIGN CHOICE,
log 11). -/
def digits (base : Nat) (l : List Char) : Option Nat :=
  if l.isEmpty then none
  else l.foldlM (fun n c => (digitValue base c).map fun d => base * n + d) 0

/-- A decimal or `0x` hexadecimal literal (R71). It takes no sign: `i`, `n` and `h` are never negative
(DESIGN CHOICE, log 11). -/
def natLiteral : List Char → Option Nat
  | '0' :: 'x' :: l => digits 16 l
  | l => digits 10 l

/-- An integer literal for `c` or `z` (R71). A minus sign may stand before either kind of literal, and a
plus sign before none (DESIGN CHOICE, log 11). -/
def intLiteral : List Char → Option Int
  | '-' :: l => (natLiteral l).map fun (n : Nat) => -(n : Int)
  | l => (natLiteral l).map fun (n : Nat) => (n : Int)

/-- The name of a slot: `t` and its number in decimal (R71). -/
def slotText (t : Nat) : List Char := 't' :: Nat.toDigits 10 t

/-- The slot whose name is written: one of the sixteen names `t0` to `t15` and nothing else (R71). -/
def slotName (l : List Char) : Option Nat := (List.range 16).find? fun t => slotText t == l

/-- `F32`, `F16` or `I8` (R71). -/
def repName (l : List Char) : Option Rep :=
  if l = ['F', '3', '2'] then some .f32
  else if l = ['F', '1', '6'] then some .f16
  else if l = ['I', '8'] then some .i8
  else none

/-- The pattern nearest to `m × 10^e`, ties to even, with a sign (R71). R71 gives binary32 operands no
range: a value that rounds past the greatest finite one gives the infinity pattern, and is no error
(DESIGN CHOICE, log 11). -/
def decimalPattern (sgn : Bool) (m : Nat) (e : Int) : Word :=
  pack32 sgn (roundMag (m * 10 ^ e.toNat * 2 ^ 149) (10 ^ (-e).toNat))

/-- The digits of a decimal literal, split at its point and at its exponent mark, without the suffix:
the whole digits, the fraction digits and the exponent. R71 shows digits on both sides of a point. An
exponent mark is DEDUCED from the test vectors. That the mark is the lower-case `e` only, that a plus or a
minus sign may stand after it, and that a literal with no point and no exponent (`1f`) and one with no
digit on one side of the point (`.5f`, `5.f`) are taken too, is a DESIGN CHOICE (log 11). -/
def decimalParts (l : List Char) : Option (List Char × List Char × Int) :=
  let body := l.takeWhile (· != 'e')
  let whole := body.takeWhile (· != '.')
  let fracDigits := (body.dropWhile (· != '.')).drop 1
  match l.dropWhile (· != 'e') with
  | [] => some (whole, fracDigits, 0)
  | _ :: '+' :: x => (digits 10 x).map fun (n : Nat) => (whole, fracDigits, (n : Int))
  | _ :: '-' :: x => (digits 10 x).map fun (n : Nat) => (whole, fracDigits, -(n : Int))
  | _ :: x => (digits 10 x).map fun (n : Nat) => (whole, fracDigits, (n : Int))

/-- A decimal literal with suffix `f`, the sign already taken (R71). At least one digit stands before
the exponent mark, on either side of the point. -/
def decimalLiteral (sgn : Bool) (l : List Char) : Option Word :=
  match l.reverse with
  | 'f' :: r =>
    match decimalParts r.reverse with
    | some (whole, fracDigits, e) =>
      (digits 10 (whole ++ fracDigits)).map fun m => decimalPattern sgn m (e - fracDigits.length)
    | none => none
  | _ => none

/-- A binary32 operand (R71): `+inf`, `-inf`, `nan`, a `0x` pattern of up to 8 digits, or a decimal
literal with suffix `f`. A plus sign before a decimal literal is taken, and a sign before a `0x` pattern
or `nan` is not (DESIGN CHOICE, log 11). -/
def floatOperand (l : List Char) : Option Word :=
  if l = ['+', 'i', 'n', 'f'] then some 0x7F800000
  else if l = ['-', 'i', 'n', 'f'] then some 0xFF800000
  else if l = ['n', 'a', 'n'] then some 0x7FC00000
  else
    match l with
    | '0' :: 'x' :: r =>
      if r.length ≤ 8 then (digits 16 r).map (BitVec.ofNat 32) else none
    | '-' :: r => decimalLiteral true r
    | '+' :: r => decimalLiteral false r
    | r => decimalLiteral false r

/-- The commands that a mnemonic with its operands stands for (R70, R72), operands not yet checked
against their ranges. A pseudo-instruction stands for several. -/
def assembleForm (name : List Char) (ops : List (List Char)) : Option (List Instr) :=
  if name = ['F', '2', 'H'] then
    match ops with
    | [x] => do return [.f2h (← floatOperand x)]
    | _ => none
  else if name = ['H', '2', 'F'] then
    match ops with
    | [h] => do return [.h2f (← natLiteral h)]
    | _ => none
  else if name = ['Q', 'N', 'T'] then
    match ops with
    | [t, x] => do return [.qnt (← slotName t) (← floatOperand x)]
    | _ => none
  else if name = ['D', 'Q', 'N'] then
    match ops with
    | [t, c] => do return [.dqn (← slotName t) (← intLiteral c)]
    | _ => none
  else if name = ['C', 'R', 'E', 'A', 'T', 'E'] then
    match ops with
    | [t, r, n] => do return [.create (← slotName t) (← repName r) (← natLiteral n)]
    | _ => none
  else if name = ['D', 'E', 'S', 'T', 'R', 'O', 'Y'] then
    match ops with
    | [t] => do return [.destroy (← slotName t)]
    | _ => none
  else if name = ['S', 'E', 'T'] then
    match ops with
    | [t, i, x] => do return [.set (← slotName t) (← natLiteral i) (← floatOperand x)]
    | _ => none
  else if name = ['G', 'E', 'T'] then
    match ops with
    | [t, i] => do return [.get (← slotName t) (← natLiteral i)]
    | _ => none
  else if name = ['W', 'S', 'C', 'A', 'L', 'E'] then
    match ops with
    | [t, v] => do return [.wscale (← slotName t) (← floatOperand v)]
    | _ => none
  else if name = ['R', 'S', 'C', 'A', 'L', 'E'] then
    match ops with
    | [t] => do return [.rscale (← slotName t)]
    | _ => none
  else if name = ['W', 'Z', 'P'] then
    match ops with
    | [t, z] => do return [.wzp (← slotName t) (← intLiteral z)]
    | _ => none
  else if name = ['R', 'Z', 'P'] then
    match ops with
    | [t] => do return [.rzp (← slotName t)]
    | _ => none
  else if name = ['D', 'E', 'N', 'S', 'E'] then
    match ops with
    | [w, x, b] => do return [.dense (← slotName w) (← slotName x) (← slotName b)]
    | _ => none
  else if name = ['C', 'R', 'E', 'A', 'T', 'E', 'Q'] then
    match ops with
    | [t, n, v, z] => do
      let t ← slotName t
      return [.create t .i8 (← natLiteral n), .wscale t (← floatOperand v), .wzp t (← intLiteral z)]
    | _ => none
  else if name = ['R', 'E', 'C', 'R', 'E', 'A', 'T', 'E'] then
    match ops with
    | [t, r, n] => do
      let t ← slotName t
      return [.destroy t, .create t (← repName r) (← natLiteral n)]
    | _ => none
  else none

/-- The instructions that one line names, operands not yet checked against their ranges (R70): a
semicolon starts a comment. A line that is blank, or blank before its comment, names none and is no error
(DESIGN CHOICE, log 11). -/
def readLine (line : List Char) : Option (List Instr) :=
  let text := trim (line.takeWhile (· != ';'))
  if text = [] then some []
  else
    let name := text.takeWhile (fun c => !c.isWhitespace)
    assembleForm name ((splitCommas (trim (text.drop name.length))).map trim)

/-- The commands of one line (R70). An operand outside its range is an error (R71). -/
def assembleLine (line : List Char) : Option (List Command) :=
  match readLine line with
  | some l => if l.all Instr.wellFormed then some (l.map encode) else none
  | none => none

/-! ### Writing a command in the syntax of R70 -/

/-- An integer in decimal (R71). -/
def intText (z : Int) : List Char :=
  if z < 0 then '-' :: Nat.toDigits 10 z.natAbs else Nat.toDigits 10 z.natAbs

/-- A binary32 operand as its `0x` pattern (R71). -/
def wordText (x : Word) : List Char := '0' :: 'x' :: (Nat.toDigits 16 x.toNat).map Char.toUpper

/-- The name of a representation (R71). -/
def repText : Rep → List Char
  | .f32 => ['F', '3', '2']
  | .f16 => ['F', '1', '6']
  | .i8 => ['I', '8']

/-- The mnemonic of an instruction and its operands in R70's order. -/
def writtenForm : Instr → List Char × List (List Char)
  | .f2h x => (['F', '2', 'H'], [wordText x])
  | .h2f h => (['H', '2', 'F'], [Nat.toDigits 10 h])
  | .qnt t x => (['Q', 'N', 'T'], [slotText t, wordText x])
  | .dqn t c => (['D', 'Q', 'N'], [slotText t, intText c])
  | .create t r n => (['C', 'R', 'E', 'A', 'T', 'E'], [slotText t, repText r, Nat.toDigits 10 n])
  | .destroy t => (['D', 'E', 'S', 'T', 'R', 'O', 'Y'], [slotText t])
  | .set t i x => (['S', 'E', 'T'], [slotText t, Nat.toDigits 10 i, wordText x])
  | .get t i => (['G', 'E', 'T'], [slotText t, Nat.toDigits 10 i])
  | .wscale t v => (['W', 'S', 'C', 'A', 'L', 'E'], [slotText t, wordText v])
  | .rscale t => (['R', 'S', 'C', 'A', 'L', 'E'], [slotText t])
  | .wzp t z => (['W', 'Z', 'P'], [slotText t, intText z])
  | .rzp t => (['R', 'Z', 'P'], [slotText t])
  | .dense w x b => (['D', 'E', 'N', 'S', 'E'], [slotText w, slotText x, slotText b])

/-- An instruction as a line: its mnemonic, a space, and its operands with a comma and a space between
two (R70). -/
def writeLine (i : Instr) : List Char :=
  (writtenForm i).1 ++ ' ' :: [',', ' '].intercalate (writtenForm i).2

end Sys2Proof.Machine
end

