-- ==== Sys2Proof/Safety.lean ====
section
/-! DEFINITION. What claims about TCORE are stated in: the invariants of a state, and when two states
look the same to every command. -/

namespace Sys2Proof.Machine

/-- The parameters are legal (R8): 1 ≤ NUM_SLOTS ≤ 16 and 0 ≤ MAX_LEN ≤ 2^32 − 1. -/
abbrev State.paramsLegal (s : State) : Prop :=
  Config.minSlots ≤ s.numSlots ∧ s.numSlots ≤ Config.maxSlots ∧ s.maxLen < Config.maxLenBound

/-- A slot's storage is in canonical form and within its `MAX_LEN` cells (R25), and while the slot is
valid its length is at most `MAX_LEN` (R22). -/
abbrev Slot.Inv (maxLen : Nat) (sl : Slot) : Prop :=
  sl.stor.wf ∧ (∀ c ∈ sl.stor, c.1 < 4 * maxLen) ∧ (sl.valid = true → u32 sl.length ≤ maxLen)

/-- The invariant of the machine (R8, R22, R25). -/
abbrev State.Inv (s : State) : Prop := s.paramsLegal ∧ ∀ sl ∈ s.slots, Slot.Inv s.maxLen sl

/-- A pattern that `enc16` can produce: never exponent field 31 or 0 with a mantissa other than 0
(R102). -/
abbrev encodedHalf (h : Half) : Prop :=
  (h.extractLsb' 10 5 = 31 ∨ h.extractLsb' 10 5 = 0) → h.extractLsb' 0 10 = 0

/-- Every element of a valid F16 slot is a pattern of `enc16`, or CREATE's zero (R27). -/
def Slot.HalfInv (sl : Slot) : Prop :=
  sl.valid = true → sl.rep = .f16 →
    ∀ i, i < u32 sl.length → encodedHalf (BitVec.ofNat 16 (memRead sl.stor i 2))

/-- Two slots look the same to every command (R25, R33): both unallocated, whatever they hold; or both
allocated with the same descriptor and the same elements below the length, whatever lies beyond. -/
def Slot.sameView (a b : Slot) : Prop :=
  a.valid = b.valid ∧ (a.valid = true →
    a.rep = b.rep ∧ a.length = b.length ∧ a.scale = b.scale ∧ a.zp = b.zp ∧
    ∀ i, i < u32 a.length →
      memRead a.stor i (repWidth a.rep) = memRead b.stor i (repWidth a.rep))

/-- Two states look the same to every command. -/
def State.sameView (s t : State) : Prop :=
  List.Forall₂ Slot.sameView s.slots t.slots ∧ s.maxLen = t.maxLen ∧ s.engine = t.engine ∧
  s.rstHeld = t.rstHeld ∧ s.draws = t.draws ∧ s.inputs = t.inputs

/-- The slots an instruction may write: at most its `ta` slot (R44). -/
def targetOf : Instr → Option Nat
  | .create t _ _ => some t
  | .destroy t => some t
  | .set t _ _ => some t
  | .wscale t _ => some t
  | .wzp t _ => some t
  | .f2h _ | .h2f _ | .qnt _ _ | .dqn _ _ | .get _ _ | .rscale _ | .rzp _ | .dense _ _ _ => none

/-- The slots an instruction names (R64). -/
def namedSlots : Instr → List Nat
  | .f2h _ | .h2f _ => []
  | .qnt t _ | .dqn t _ | .create t _ _ | .destroy t | .set t _ _ | .get t _ | .wscale t _
  | .rscale t | .wzp t _ | .rzp t => [t]
  | .dense tw tx tbias => [tw, tx, tbias]

/-- The command is not CREATE, the one command that wants its slot unallocated (R202). -/
def needsAllocated : Instr → Bool
  | .create _ _ _ => false
  | .f2h _ | .h2f _ | .qnt _ _ | .dqn _ _ | .destroy _ | .set _ _ _ | .get _ _ | .wscale _ _
  | .rscale _ | .wzp _ _ | .rzp _ | .dense _ _ _ => true

/-- The place of an instruction's row in the opcode table (R68). -/
def rowOf : Instr → Nat
  | .f2h _ => 0
  | .h2f _ => 1
  | .qnt _ _ => 2
  | .dqn _ _ => 3
  | .create _ _ _ => 4
  | .destroy _ => 5
  | .set _ _ _ => 6
  | .get _ _ => 7
  | .wscale _ _ => 8
  | .rscale _ => 9
  | .wzp _ _ => 10
  | .rzp _ => 11
  | .dense _ _ _ => 12

/-- The 13 opcodes of R64. -/
def definedOpcodes : List Nat :=
  [0x01, 0x02, 0x03, 0x04, 0x10, 0x11, 0x12, 0x13, 0x14, 0x15, 0x16, 0x17, 0x20]

/-- A field that R64's table marks 0 for the command's opcode is not zero, row by row (R63). -/
def unusedNonzero (c : Command) : Prop :=
  (c.op.toNat ∈ [0x01, 0x02] ∧ (c.ta ≠ 0 ∨ c.tb ≠ 0 ∨ c.tc ≠ 0 ∨ c.rep ≠ 0 ∨ c.a ≠ 0)) ∨
  (c.op.toNat ∈ [0x03, 0x04, 0x14, 0x16] ∧ (c.tb ≠ 0 ∨ c.tc ≠ 0 ∨ c.rep ≠ 0 ∨ c.a ≠ 0)) ∨
  (c.op.toNat = 0x10 ∧ (c.tb ≠ 0 ∨ c.tc ≠ 0 ∨ c.b ≠ 0)) ∨
  (c.op.toNat ∈ [0x11, 0x15, 0x17] ∧
    (c.tb ≠ 0 ∨ c.tc ≠ 0 ∨ c.rep ≠ 0 ∨ c.a ≠ 0 ∨ c.b ≠ 0)) ∨
  (c.op.toNat = 0x12 ∧ (c.tb ≠ 0 ∨ c.tc ≠ 0 ∨ c.rep ≠ 0)) ∨
  (c.op.toNat = 0x13 ∧ (c.tb ≠ 0 ∨ c.tc ≠ 0 ∨ c.rep ≠ 0 ∨ c.b ≠ 0)) ∨
  (c.op.toNat = 0x20 ∧ (c.rep ≠ 0 ∨ c.a ≠ 0 ∨ c.b ≠ 0))

/-- |val| of the finite pattern whose 31 low bits are `mag`, in units of 2^−149 (R12). -/
def magOf (mag : Nat) : Nat := magUnits (pack32 false mag)

/-- The least magnitude, in units of 2^−149, that rounds to infinity: half a step above the greatest
finite pattern (R12, decision D18). -/
def overflowUnits : Nat := (2 ^ 25 - 1) * 2 ^ 252

/-- The pattern is no infinity and no NaN. -/
abbrev finite32 (x : Word) : Prop := bexp x ≠ 255

end Sys2Proof.Machine
end

