-- ==== Sys2Proof/Certificates/Slice0/Obligations.lean ====
section
/-! DEFINITION. The statements about TCORE for the provers, each a `def Obligations.<Name> : Prop`. -/

open Sys2Proof Sys2Proof.Machine

/-! ### Encoding -/

/-- R60 to R71: a well-formed instruction's command decodes to it, every operand at every value. -/
def Obligations.DecodeOfEncodeIsTheInstruction : Prop :=
  ∀ i : Instr, i.wellFormed = true → decode (encode i) = .ok i

/-- R67: what decodes is well formed, and no bit of the command is lost: it encodes back. -/
def Obligations.EncodeOfDecodeIsTheCommand : Prop :=
  ∀ (c : Command) (i : Instr), decode c = .ok i → i.wellFormed = true ∧ encode i = c

/-- R68: row `k` of the opcode table selects exactly the commands that decode to its instruction, and
no command is selected by two rows. -/
def Obligations.TableRowsSelectWhatDecodes : Prop :=
  (∀ (c : Command) (k : Nat) (r : Row), opcodeRows[k]? = some r →
    (r.selects c.bits = true ↔ ∃ i, decode c = .ok i ∧ rowOf i = k)) ∧
  ∀ (c : Command) (j k : Nat) (r r' : Row), opcodeRows[j]? = some r → opcodeRows[k]? = some r' →
    r.selects c.bits = true → r'.selects c.bits = true → j = k

/-- R205: a command is illegal exactly for a reserved opcode, a nonzero `res` or unused field, CREATE
with `rep = 3`, H2F with `B[31:16] ≠ 0`, or DQN with `s32(B)` outside [−128, 127]; and then its rule is
to end with `ERR_ILLEGAL`. -/
def Obligations.ExactlyIllegalCommandsEndIllegal : Prop :=
  ∀ c : Command,
    ((∃ e, decode c = .error e) ↔
      (c.op.toNat ∉ definedOpcodes ∨ c.res ≠ 0 ∨ unusedNonzero c ∨
        (c.op.toNat = 0x10 ∧ c.rep = 3) ∨ (c.op.toNat = 0x02 ∧ c.b.toNat / 2 ^ 16 ≠ 0) ∨
        (c.op.toNat = 0x04 ∧ ¬(-128 ≤ s32 c.b ∧ s32 c.b ≤ 127)))) ∧
    ((∃ e, decode c = .error e) →
      ∀ s, runCommand c s = .next (s.setEngine (.resp .errIllegal 0)))

/-- Words written out from the tables of R61 and R64 decode to the commands they stand for. -/
def Obligations.TableWordsDecode : Prop :=
  decode ⟨0x01000000, 0, 0xBF99999A⟩ = .ok (.f2h 0xBF99999A) ∧
  decode ⟨0x04100000, 0, 0xFFFFFFE0⟩ = .ok (.dqn 1 (-32)) ∧
  decode ⟨0x10300400, 0x00000401, 0⟩ = .ok (.create 3 .f16 1025) ∧
  decode ⟨0x12F00000, 0xFFFFFFFF, 0x7FC12345⟩ = .ok (.set 15 4294967295 0x7FC12345) ∧
  decode ⟨0x20123000, 0, 0⟩ = .ok (.dense 1 2 3)

/-- R70, R71: a line is assembled exactly where every instruction that it names is within its operand
ranges; the commands are then the encodings of those instructions, and each decodes to its own. Where one
is out of its range there is no command. The spelling R71 leaves open is the model's (log 11). -/
def Obligations.AssembledCommandsDecode : Prop :=
  ∀ line : List Char,
    (∀ l : List Command, assembleLine line = some l ↔
      ∃ is, readLine line = some is ∧ (∀ i ∈ is, i.wellFormed = true) ∧ l = is.map encode) ∧
    (∀ (l : List Command) (c : Command), assembleLine line = some l → c ∈ l →
      ∃ is i, readLine line = some is ∧ i ∈ is ∧ i.wellFormed = true ∧ c = encode i ∧
        decode c = .ok i) ∧
    ∀ is i, readLine line = some is → i ∈ is → i.wellFormed = false → assembleLine line = none

/-- R70, R71: every instruction written as its mnemonic and its operands, slots and integers in decimal
and binary32 operands as patterns, is assembled to its encoding where its operands are in range, and to
no command where one is not: a slot past `t15`, an index, length, zero-point, code or half pattern past
its range. -/
def Obligations.WrittenInstructionsAssemble : Prop :=
  ∀ i : Instr,
    (i.wellFormed = true → assembleLine (writeLine i) = some [encode i]) ∧
    (i.wellFormed = false → assembleLine (writeLine i) = none)

/-- R71: the slots are the sixteen names `t0` to `t15` and no other text. -/
def Obligations.SlotNamesAreExactlyT0ToT15 : Prop :=
  ∀ (l : List Char) (t : Nat), slotName l = some t ↔ t < 16 ∧ l = 't' :: Nat.toDigits 10 t

/-! ### The clock edge -/

/-- R242: a busy engine at its last cycle, reset low, decodes and runs its command on the state with
this edge's inputs taken; and so does the step after `withFetchWord`, whatever the state. -/
def Obligations.StepRunsTheDecodedCommand : Prop :=
  (∀ (s : State) (c : Command) (i : Instr), s.engine = .busy c 0 → s.portIn.rst = false →
    decode c = .ok i → step s = exec i s.sampled) ∧
  ∀ (s : State) (nbits w : Nat) (i : Instr), decodeTableWord nbits w = some i →
    step (s.withFetchWord nbits w) = exec i (s.withFetchWord nbits w).sampled

/-- R205: a command that does not decode ends with `ERR_ILLEGAL` and data 0, and changes nothing. -/
def Obligations.UndecodableCommandEndsIllegal : Prop :=
  ∀ (s : State) (c : Command) (e : DecodeError), s.engine = .busy c 0 → s.portIn.rst = false →
    decode c = .error e → step s = .next (s.sampled.setEngine (.resp .errIllegal 0))

/-- R66: a command with a reserved opcode does not decode, and ends with `ERR_ILLEGAL` and changes no
slot. -/
def Obligations.ReservedOpcodesAreIllegal : Prop :=
  ∀ (c : Command) (s : State), c.op.toNat ∉ definedOpcodes →
    decode c = .error .reservedOpcode ∧
    runCommand c s = .next (s.setEngine (.resp .errIllegal 0))

/-- R241: at an edge without reset, an offered command is accepted exactly where `cmd_ready` is 1, its
three words captured and no slot touched; a response is delivered exactly where `rsp_ready` is 1, and
until then its status and data are held. That an idle engine with no command to accept changes nothing is
R242's, and that the draw counter goes up by one at acceptance is the model's choice (log 4). -/
def Obligations.TransfersFollowTheHandshake : Prop :=
  ∀ s : State, s.portIn.rst = false →
    (s.cmdReady = true → s.portIn.cmdValid = true →
      ∃ n, step s = .next { s.sampled with engine := .busy s.portIn.cmd n, draws := s.draws + 1 }) ∧
    (s.engine = .idle → (s.cmdReady = false ∨ s.portIn.cmdValid = false) →
      step s = .next s.sampled) ∧
    (s.rspValid = true → s.portIn.rspReady = true → step s = .next (s.sampled.setEngine .idle)) ∧
    (s.rspValid = true → s.portIn.rspReady = false →
      step s = .next s.sampled ∧ s.sampled.rspPort = s.rspPort ∧ s.sampled.rspValid = true)

/-- R242: while the engine is busy and reset is low, an edge before the last cycle only counts. -/
def Obligations.BusyEdgesTouchNothing : Prop :=
  ∀ (s : State) (c : Command) (n : Nat), s.engine = .busy c (n + 1) → s.portIn.rst = false →
    step s = .next (s.sampled.setEngine (.busy c n)) ∧
    s.sampled.slots = s.slots ∧ s.sampled.draws = s.draws

/-- R230: an edge with `rst = 1` leaves no command ready and no response offered, whatever the engine
was doing; the next edge with `rst = 0` leaves the reset state: `IDLE`, ready, every slot unallocated,
the parameters as they were. -/
def Obligations.ResetEdgeLeavesTheResetState : Prop :=
  ∀ s : State, s.portIn.rst = true →
    ∃ t, step s = .next t ∧ t.cmdReady = false ∧ t.rspValid = false ∧
      (t.portIn.rst = false →
        ∃ u, step t = .next u ∧ u.engine = .idle ∧ u.cmdReady = true ∧ u.rspValid = false ∧
          (∀ sl ∈ u.slots, sl.valid = false) ∧ u.numSlots = s.numSlots ∧ u.maxLen = s.maxLen)

/-- R31: after reset, for every choice of the parameters, the engine is `IDLE`, ready, offers no
response, and every slot is unallocated. -/
def Obligations.ResetStateIsIdleAndUnallocated : Prop :=
  ∀ n m : Nat, (State.resetWith n m).engine = .idle ∧ (State.resetWith n m).cmdReady = true ∧
    (State.resetWith n m).rspPort = none ∧ (State.resetWith n m).numSlots = n ∧
    (State.resetWith n m).maxLen = m ∧ ∀ sl ∈ (State.resetWith n m).slots, sl.valid = false

/-- R251: a command offered to a ready TCORE with no reset to come is accepted, stays in hand for a
finite number of edges that touch no slot, and then has its rule applied and its response offered. -/
def Obligations.EveryAcceptedCommandResponds : Prop :=
  ∀ s : State, s.cmdReady = true → s.portIn.cmdValid = true → (∀ p ∈ s.inputs, p.rst = false) →
    ∃ (n : Nat) (u t : State) (st : Status) (d : Word),
      Host.Core.run core (n + 1) s = .next u ∧ u.engine = .busy s.portIn.cmd 0 ∧
      u.slots = s.slots ∧ u.maxLen = s.maxLen ∧
      Host.Core.run core (n + 2) s = .next t ∧ runCommand s.portIn.cmd u.sampled = .next t ∧
      t.engine = .resp st d

/-- R210, R251: no step of TCORE stops the machine: every one answers a next state. -/
def Obligations.EveryStepAnswersNext : Prop := ∀ s : State, ∃ t, step s = .next t

/-! ### Invariants and whole-machine rules -/

/-- The invariant of R8, R22 and R25 holds at reset. -/
def Obligations.InvariantHoldsAtReset : Prop := State.reset.Inv

/-- Every step keeps the invariant: legal parameters, storage in canonical form within `MAX_LEN` cells,
and every valid slot's length at most `MAX_LEN` (R8, R22, R25). -/
def Obligations.EveryStepKeepsTheInvariant : Prop :=
  ∀ s t : State, s.Inv → step s = .next t → t.Inv

/-- R27: F16 elements of valid slots are patterns of `enc16` or zero, at reset. -/
def Obligations.HalfElementsEncodedAtReset : Prop := ∀ sl ∈ State.reset.slots, sl.HalfInv

/-- R27: every step keeps that the elements of valid F16 slots are patterns of `enc16` or zero. -/
def Obligations.EveryStepKeepsHalfElementsEncoded : Prop :=
  ∀ s t : State, s.Inv → (∀ sl ∈ s.slots, sl.HalfInv) → step s = .next t →
    ∀ sl ∈ t.slots, sl.HalfInv

/-- R8: no step changes a parameter. -/
def Obligations.EveryStepKeepsTheParameters : Prop :=
  ∀ s t : State, step s = .next t → t.numSlots = s.numSlots ∧ t.maxLen = s.maxLen

/-- R23: over any step that leaves a slot's tensor in place, its representation and length are the
same. -/
def Obligations.RepAndLengthFixedForLife : Prop :=
  ∀ (s t : State) (u : Nat) (a b : Slot), step s = .next t → s.slots[u]? = some a →
    t.slots[u]? = some b → a.valid = true → b.valid = true → a.rep = b.rep ∧ a.length = b.length

/-- R208: a command that ends with an error status has data 0 and changes nothing but the response. -/
def Obligations.ErrorsChangeNothing : Prop :=
  ∀ (c : Command) (s t : State) (e : Status) (d : Word), runCommand c s = .next t →
    t.engine = .resp e d → e ≠ .ok → d = 0 ∧ t = s.setEngine (.resp e 0)

/-- R26, R44, R46: an instruction changes at most its target slot, the draws and the response; every
other slot, its storage included, the parameters and the coming inputs are as before. -/
def Obligations.OnlyTheTargetSlotChanges : Prop :=
  ∀ (i : Instr) (s t : State), exec i s = .next t →
    (∀ u, targetOf i ≠ some u → t.slots[u]? = s.slots[u]?) ∧ t.numSlots = s.numSlots ∧
    t.maxLen = s.maxLen ∧ t.rstHeld = s.rstHeld ∧ t.inputs = s.inputs ∧
    (targetOf i = none → t.slots = s.slots)

/-- R202: a command that names a slot at or past `NUM_SLOTS`, or (but for CREATE) one not allocated,
ends with `ERR_SLOT`, and nothing else changes. -/
def Obligations.MissingSlotEndsWithErrSlot : Prop :=
  ∀ (i : Instr) (s : State) (t : Nat), t ∈ namedSlots i →
    (s.numSlots ≤ t ∨ (needsAllocated i = true ∧ s.allocated t = none)) →
    exec i s = .next (s.setEngine (.resp .errSlot 0))

/-- R33: what an unallocated slot holds, and what lies past a tensor's length, is read by no
instruction: two states that differ there only give the same response, and still differ there only
(the draws of both runs taken to be the same). -/
def Obligations.UnobservableStateIsNeverRead : Prop :=
  ∀ (i : Instr) (s s' : State), s.Inv → s'.Inv → s.sameView s' →
    ∃ t t', exec i s = .next t ∧ exec i s' = .next t' ∧ t.sameView t'

/-! ### Half-float codec -/

/-- R101, R102, R104: F2H always completes with the pattern of the input's class, and changes nothing
else: signed zero below exponent field 113, the rebased exponent and the truncated mantissa up to 142,
the signed infinity pattern above. -/
def Obligations.F2hRespondsByInputClass : Prop :=
  ∀ (x : Word) (s : State), exec (.f2h x) s = .next (s.setEngine (.resp .ok (BitVec.ofNat 32
    (x.toNat / 2 ^ 31 * 2 ^ 15 +
      (if x.toNat / 2 ^ 23 % 256 ≤ 112 then 0
       else if x.toNat / 2 ^ 23 % 256 ≤ 142 then
         (x.toNat / 2 ^ 23 % 256 - 112) * 2 ^ 10 + x.toNat % 2 ^ 23 / 2 ^ 13
       else 0x7C00)))))

/-- R103, R105: H2F always completes: signed zero for exponent field 0, else the exponent rebased by
112 and the mantissa shifted by 13; nothing else changes. -/
def Obligations.H2fRespondsByExponentField : Prop :=
  ∀ (h : Nat) (s : State), h < 2 ^ 16 → exec (.h2f h) s = .next (s.setEngine (.resp .ok
    (BitVec.ofNat 32 (h / 2 ^ 15 * 2 ^ 31 +
      (if h / 2 ^ 10 % 32 = 0 then 0
       else (h / 2 ^ 10 % 32 + 112) * 2 ^ 23 + h % 2 ^ 10 * 2 ^ 13)))))

/-- R106: no decoded half is an infinity, a NaN or a nonzero subnormal; exponent field 31 decodes to a
finite number of exponent 2^16; the greatest magnitude is that of 0x47FFE000. -/
def Obligations.DecodedHalvesAreFinite : Prop :=
  (∀ h : Half, finite32 (dec16 h) ∧ (bexp (dec16 h) = 0 → frac (dec16 h) = 0) ∧
    magUnits (dec16 h) ≤ magUnits 0x47FFE000 ∧
    (h.toNat / 2 ^ 10 % 32 = 31 →
      magUnits (dec16 h) = 2 ^ 16 * 2 ^ 149 / 1024 * (1024 + h.toNat % 2 ^ 10) ∧
      sign32 (dec16 h) = decide (2 ^ 15 ≤ h.toNat))) ∧
  dec16 0x7C00 = 0x47800000 ∧ dec16 0xFC00 = 0xC7800000 ∧ dec16 0x7E00 = 0x47C00000 ∧
  dec16 0x7FFF = 0x47FFE000

/-- R107: (a) from a half and back; (b) exact on binary32 values that are normal halves, and on ±0;
(c) lossy elsewhere: truncated in the normal range, flushed to signed zero below it, clamped to
±65536.0 above it, infinities and NaNs included. -/
def Obligations.HalfRoundTrips : Prop :=
  (∀ h : Half,
    (h.toNat / 2 ^ 10 % 32 = 0 → (enc16 (dec16 h)).toNat = h.toNat / 2 ^ 15 * 2 ^ 15) ∧
    (h.toNat / 2 ^ 10 % 32 = 31 →
      (enc16 (dec16 h)).toNat = h.toNat / 2 ^ 15 * 2 ^ 15 + 0x7C00) ∧
    (h.toNat / 2 ^ 10 % 32 ≠ 0 → h.toNat / 2 ^ 10 % 32 ≠ 31 → enc16 (dec16 h) = h)) ∧
  (∀ x : Word,
    (113 ≤ bexp x → bexp x ≤ 142 → x.toNat % 2 ^ 13 = 0 → dec16 (enc16 x) = x) ∧
    (isZero32 x = true → dec16 (enc16 x) = x) ∧
    (113 ≤ bexp x → bexp x ≤ 142 →
      (dec16 (enc16 x)).toNat = x.toNat / 2 ^ 13 * 2 ^ 13) ∧
    (bexp x < 113 → dec16 (enc16 x) = pack32 (sign32 x) 0) ∧
    (143 ≤ bexp x → dec16 (enc16 x) = pack32 (sign32 x) 0x47800000))

/-- R108: in the normal range the round trip keeps the sign, never grows the magnitude, and loses less
than one F16 unit in the last place, a relative error below 2^−10 (in units of 2^−149). -/
def Obligations.HalfTruncationErrorIsBounded : Prop :=
  ∀ x : Word, 113 ≤ bexp x → bexp x ≤ 142 →
    sign32 (dec16 (enc16 x)) = sign32 x ∧ magUnits (dec16 (enc16 x)) ≤ magUnits x ∧
    magUnits x < magUnits (dec16 (enc16 x)) + 2 ^ (bexp x + 12) ∧
    (magUnits x - magUnits (dec16 (enc16 x))) * 2 ^ 10 < magUnits x

/-! ### Binary32 arithmetic -/

/-- R12 with decision D18 and IEEE-754 (log 9): rounding picks a finite pattern nearest to
`num / den`, the even one at a tie, and infinity exactly from half a step above the greatest finite
value on. -/
def Obligations.RoundingIsToNearestEven : Prop :=
  ∀ num den : Nat, 0 < den →
    (roundMag num den = infMag ↔ overflowUnits * den ≤ num) ∧
    (roundMag num den < infMag → ∀ m, m < infMag →
      ((magOf (roundMag num den) * den : Int) - num).natAbs ≤ ((magOf m * den : Int) - num).natAbs ∧
      (m ≠ roundMag num den →
        ((magOf (roundMag num den) * den : Int) - num).natAbs = ((magOf m * den : Int) - num).natAbs →
        roundMag num den % 2 = 0))

/-- R12: a result is a NaN pattern exactly where IEEE-754 gives a NaN, and only then a draw is
taken. -/
def Obligations.NanResultsAreExactlyTheDraws : Prop :=
  ∀ (a b : Word) (k : Nat),
    (isNaN32 (fadd32 a b k).1 = true ↔ addRounded a b = none) ∧
    (isNaN32 (fmul32 a b k).1 = true ↔ mulRounded a b = none) ∧
    (isNaN32 (fdiv32 a b k).1 = true ↔ divRounded a b = none) ∧
    (addRounded a b = none ↔ isNaN32 a = true ∨ isNaN32 b = true ∨
      (isInf32 a = true ∧ isInf32 b = true ∧ sign32 a ≠ sign32 b)) ∧
    (mulRounded a b = none ↔ isNaN32 a = true ∨ isNaN32 b = true ∨
      (isInf32 a = true ∧ isZero32 b = true) ∨ (isZero32 a = true ∧ isInf32 b = true)) ∧
    (divRounded a b = none ↔ isNaN32 a = true ∨ isNaN32 b = true ∨
      (isInf32 a = true ∧ isInf32 b = true) ∨ (isZero32 a = true ∧ isZero32 b = true)) ∧
    (fadd32 a b k).2 = (if addRounded a b = none then k + 1 else k) ∧
    (fmul32 a b k).2 = (if mulRounded a b = none then k + 1 else k) ∧
    (fdiv32 a b k).2 = (if divRounded a b = none then k + 1 else k)

/-- R123: the conversion of an integer of magnitude at most 2^24 is exact. -/
def Obligations.SmallIntegersConvertExactly : Prop :=
  ∀ n : Int, n.natAbs ≤ 2 ^ 24 →
    finite32 (i2f32 n) ∧ units (i2f32 n) = n * 2 ^ 149 ∧ sign32 (i2f32 n) = decide (n < 0) ∧
    trunc32 (i2f32 n) = n

/-- R12 with IEEE-754 (log 9): addition and multiplication commute, and adding +0.0 or multiplying by
1.0 gives a value back, −0.0 + +0.0 being +0.0. -/
def Obligations.ArithmeticCommutesWithIdentities : Prop :=
  ∀ a b : Word, addRounded a b = addRounded b a ∧ mulRounded a b = mulRounded b a ∧
    (isNaN32 a = false → addRounded 0 a = some (if a = 0x80000000 then 0 else a) ∧
      mulRounded 0x3F800000 a = some a ∧ divRounded a 0x3F800000 = some a)

/-- R176: scaling by two commutes with rounding, bit for bit, while the value is in the normal range and
the scaled result does not overflow: the exponent field goes up by one. -/
def Obligations.DoublingCommutesWithRounding : Prop :=
  ∀ num den : Nat, 0 < den → 2 ^ 23 * den ≤ num → roundMag num den + 2 ^ 23 < infMag →
    roundMag (2 * num) den = roundMag num den + 2 ^ 23

/-! ### Quantized-value codec -/

/-- R121, R124, R129: QNT on an allocated slot whose quotient is finite completes: the code is the one
int8 code congruent modulo 256 to the truncated quotient plus the zero-point, answered sign-extended;
nothing else changes. -/
def Obligations.QntRespondsTheWrappedCode : Prop :=
  ∀ (s : State) (t : Nat) (x q : Word) (sl : Slot), s.allocated t = some sl →
    divRounded x sl.scale = some q → finite32 q →
    ∃ c : Int, -128 ≤ c ∧ c ≤ 127 ∧ (256 : Int) ∣ c - (trunc32 q + s32 sl.zp) ∧
      exec (.qnt t x) s = .next (s.setEngine (.resp .ok (BitVec.ofInt 32 c)))

/-- R121, R124, R206: QNT on an allocated slot always completes with a sign-extended int8 code, and
changes nothing else but the draws taken: none, one, or two where the quotient is a NaN. -/
def Obligations.QntAlwaysRespondsACode : Prop :=
  ∀ (s : State) (t : Nat) (x : Word) (sl : Slot), s.allocated t = some sl →
    ∃ (c : Int) (k : Nat), -128 ≤ c ∧ c ≤ 127 ∧ s.draws ≤ k ∧ k ≤ s.draws + 2 ∧
      exec (.qnt t x) s = .next ((s.setDraws k).setEngine (.resp .ok (BitVec.ofInt 32 c)))

/-- R126: the quotient is finite exactly where neither operand is a NaN, the value is finite, and the
scale is infinite or is nonzero with no overflow; an infinite scale or a quotient below 1 gives the
wrapped zero-point. -/
def Obligations.QuantCornerCases : Prop :=
  ∀ x v : Word,
    ((∃ q, divRounded x v = some q ∧ finite32 q) ↔
      finite32 x ∧ isNaN32 v = false ∧ isZero32 v = false ∧
        (isInf32 v = true ∨ magUnits x * 2 ^ 149 < overflowUnits * magUnits v)) ∧
    ∀ (z : Int) (k : Nat),
      (finite32 x → isInf32 v = true → quant x v z k = (wrap8 z, k)) ∧
      ∀ q, divRounded x v = some q → finite32 q → magUnits q < 2 ^ 149 →
        quant x v z k = (wrap8 z, k)

/-- R123, R125: DQN on an allocated slot with a finite scale completes with the product of the
converted `c − z` and the scale, rounded once and signed by the two signs; while `c − z` is at most 2^24
in magnitude the only rounding is that of the product; nothing else changes. -/
def Obligations.DqnRespondsTheRoundedProduct : Prop :=
  ∀ (s : State) (t : Nat) (c : Int) (sl : Slot), s.allocated t = some sl → codeOk c = true →
    finite32 sl.scale →
    exec (.dqn t c) s = .next (s.setEngine (.resp .ok
      (pack32 (decide (c - s32 sl.zp < 0) != sign32 sl.scale)
        (roundMag (magUnits (i2f32 (c - s32 sl.zp)) * magUnits sl.scale) (2 ^ 149))))) ∧
    ((c - s32 sl.zp).natAbs ≤ 2 ^ 24 →
      roundMag (magUnits (i2f32 (c - s32 sl.zp)) * magUnits sl.scale) (2 ^ 149) =
        roundMag ((c - s32 sl.zp).natAbs * magUnits sl.scale) 1)

/-- R127: DQN with a zero scale gives a zero signed as the product of the signs; with an infinite scale
a signed infinity, or a NaN where `c = z`; with a NaN scale a NaN. It always completes. -/
def Obligations.DqnCornerCases : Prop :=
  (∀ (s : State) (t : Nat) (c : Int) (sl : Slot), s.allocated t = some sl → codeOk c = true →
    (isZero32 sl.scale = true → exec (.dqn t c) s = .next (s.setEngine (.resp .ok
      (pack32 (decide (c - s32 sl.zp < 0) != sign32 sl.scale) 0)))) ∧
    (isInf32 sl.scale = true → c ≠ s32 sl.zp → exec (.dqn t c) s = .next (s.setEngine (.resp .ok
      (pack32 (decide (c - s32 sl.zp < 0) != sign32 sl.scale) infMag)))) ∧
    ((isInf32 sl.scale = true ∧ c = s32 sl.zp) ∨ isNaN32 sl.scale = true →
      ∃ v, isNaN32 v = true ∧
        exec (.dqn t c) s = .next ((s.setDraws (s.draws + 1)).setEngine (.resp .ok v)))) ∧
  i2f32 (-2147483547) = 0xCEFFFFFF

/-! ### Tensor container -/

/-- R144, R202, R203, R204, R207: CREATE's errors in their order, each changing nothing but the
response. -/
def Obligations.CreateErrorsInOrder : Prop :=
  ∀ (s : State) (t : Nat) (rep : Rep) (n : Nat),
    (s.numSlots ≤ t → exec (.create t rep n) s = .next (s.setEngine (.resp .errSlot 0))) ∧
    ∀ sl, s.slots[t]? = some sl →
      (sl.valid = true → exec (.create t rep n) s = .next (s.setEngine (.resp .errBusy 0))) ∧
      (sl.valid = false → s.maxLen < n →
        exec (.create t rep n) s = .next (s.setEngine (.resp .errAlloc 0)))

/-- R32, R144: CREATE on an unallocated slot within the capacity completes: the slot holds a tensor of
the given representation and length with scale 1.0 and zero-point 0, every element the all-zero
pattern, and every index reads as +0.0; the bytes outside the elements, every other slot and all else
are as before. -/
def Obligations.CreateMakesAZeroTensor : Prop :=
  ∀ (s : State) (t : Nat) (rep : Rep) (n : Nat) (sl : Slot), s.slots[t]? = some sl →
    sl.valid = false → n ≤ s.maxLen → n < 2 ^ 32 →
    ∃ new : Slot, exec (.create t rep n) s = .next ((s.setSlot t new).setEngine (.resp .ok 0)) ∧
      new.valid = true ∧ new.rep = rep ∧ u32 new.length = n ∧ new.scale = 0x3F800000 ∧
      new.zp = 0 ∧ (∀ i, i < n → memRead new.stor i (repWidth rep) = 0) ∧
      (∀ i k, getval new i k = (0, k)) ∧
      ∀ a, inElements n (repWidth rep) a = false → new.stor.readByte a = sl.stor.readByte a

/-- R144: the zero fill is the loop that writes zero to the elements `0 .. n − 1` one by one. -/
def Obligations.ZeroFillIsTheWriteLoop : Prop :=
  ∀ (m : Memory) (n : Nat) (rep : Rep), m.wf →
    zeroFill m n (repWidth rep) =
      (List.range n).foldl (fun m i => memWrite m i (repWidth rep) 0) m

/-- R145: DESTROY on an allocated slot completes and clears its `valid`; in the state it leaves, every
instruction but CREATE that names the slot ends with `ERR_SLOT`. That the slot's other fields keep what
they held is the model's choice (log 7), as no rule says what an unallocated slot holds. -/
def Obligations.DestroyEndsEveryLaterUse : Prop :=
  ∀ (s : State) (t : Nat) (sl : Slot), s.allocated t = some sl →
    ∃ s', exec (.destroy t) s = .next s' ∧
      s' = (s.setSlot t { sl with valid := false }).setEngine (.resp .ok 0) ∧
      ∀ i, needsAllocated i = true → t ∈ namedSlots i →
        exec i s' = .next (s'.setEngine (.resp .errSlot 0))

/-- R142, R146: SET in range on an allocated slot completes: the element holds the value's pattern, and
every byte of storage outside it, every other field and slot is as before. -/
def Obligations.SetStoresTheElement : Prop :=
  ∀ (s : State) (t i : Nat) (x : Word) (sl : Slot), s.allocated t = some sl → sl.stor.wf →
    i < u32 sl.length →
    ∃ (m : Memory) (k : Nat),
      exec (.set t i x) s =
        .next (((s.setSlot t { sl with stor := m }).setDraws k).setEngine (.resp .ok 0)) ∧
      (sl.rep = .f32 → memRead m i 4 = x.toNat ∧ k = s.draws) ∧
      (sl.rep = .f16 → memRead m i 2 = (enc16 x).toNat ∧ k = s.draws) ∧
      (sl.rep = .i8 →
        memRead m i 1 = (bits8 (quant x sl.scale (s32 sl.zp) s.draws).1).toNat ∧
        k = (quant x sl.scale (s32 sl.zp) s.draws).2) ∧
      ∀ a, a < cellAddr i ∨ cellAddr i + repWidth sl.rep ≤ a → m.readByte a = sl.stor.readByte a

/-- R153: an index out of range is no error: SET answers `OK` and changes nothing, GET answers `OK` with
`0x00000000`, and DENSE's operand read gives +0.0 and takes no draw. -/
def Obligations.OutOfRangeIndexIsSilent : Prop :=
  ∀ (s : State) (t i : Nat) (x : Word) (sl : Slot), s.allocated t = some sl →
    u32 sl.length ≤ i →
    exec (.set t i x) s = .next (s.setEngine (.resp .ok 0)) ∧
    exec (.get t i) s = .next (s.setEngine (.resp .ok 0)) ∧
    ∀ k, getval sl i k = (0, k)

/-- R141, R147: GET in range on an allocated slot completes with the element decoded from the slot's
representation, an I8 code as a signed integer against the slot's parameters; nothing else changes but
the draws. -/
def Obligations.GetRespondsTheDecodedElement : Prop :=
  ∀ (s : State) (t i : Nat) (sl : Slot), s.allocated t = some sl → i < u32 sl.length →
    (sl.rep = .f32 → exec (.get t i) s =
      .next (s.setEngine (.resp .ok (BitVec.ofNat 32 (memRead sl.stor i 4))))) ∧
    (sl.rep = .f16 → exec (.get t i) s =
      .next (s.setEngine (.resp .ok (dec16 (BitVec.ofNat 16 (memRead sl.stor i 2)))))) ∧
    (sl.rep = .i8 → ∀ c : Int,
      c = (if memRead sl.stor i 1 < 128 then (memRead sl.stor i 1 : Int)
           else (memRead sl.stor i 1 : Int) - 256) →
      exec (.get t i) s =
        .next ((s.setDraws (dequant c sl.scale (s32 sl.zp) s.draws).2).setEngine
          (.resp .ok (dequant c sl.scale (s32 sl.zp) s.draws).1)))

/-- R143: GET after SET of the same element: the value itself for F32, the half round trip for F16, the
dequantized code for I8. -/
def Obligations.GetAfterSet : Prop :=
  ∀ (s : State) (t i : Nat) (x : Word) (sl : Slot), s.allocated t = some sl → sl.stor.wf →
    i < u32 sl.length →
    ∃ (s' s'' : State) (v : Word), exec (.set t i x) s = .next s' ∧ exec (.get t i) s' = .next s'' ∧
      s''.engine = .resp .ok v ∧ s''.slots = s'.slots ∧
      (sl.rep = .f32 → v = x) ∧ (sl.rep = .f16 → v = dec16 (enc16 x)) ∧
      (sl.rep = .i8 → v =
        (dequant (quant x sl.scale (s32 sl.zp) s.draws).1 sl.scale (s32 sl.zp)
          (quant x sl.scale (s32 sl.zp) s.draws).2).1)

/-- R24, R148, R149: WSCALE on an allocated slot of any representation completes, changes its `scale`
only, elements included, and RSCALE then completes with the pattern written; RSCALE completes with the
pattern held in any case. -/
def Obligations.ScaleReadsBackAsWritten : Prop :=
  ∀ (s : State) (t : Nat) (v : Word) (sl : Slot), s.allocated t = some sl →
    exec (.rscale t) s = .next (s.setEngine (.resp .ok sl.scale)) ∧
    ∃ s', exec (.wscale t v) s = .next s' ∧
      s' = (s.setSlot t { sl with scale := v }).setEngine (.resp .ok 0) ∧
      exec (.rscale t) s' = .next (s'.setEngine (.resp .ok v))

/-- R24, R150, R151: WZP on an allocated slot of any representation completes, changes its `zp` only,
elements included, and RZP then completes with the two's-complement pattern of the value written; RZP
completes with the pattern held in any case. -/
def Obligations.ZeroPointReadsBackAsWritten : Prop :=
  ∀ (s : State) (t : Nat) (z : Int) (sl : Slot), s.allocated t = some sl → zeroPointOk z = true →
    exec (.rzp t) s = .next (s.setEngine (.resp .ok sl.zp)) ∧
    ∃ (s' : State) (v : Word), s32 v = z ∧ exec (.wzp t z) s = .next s' ∧
      s' = (s.setSlot t { sl with zp := v }).setEngine (.resp .ok 0) ∧
      exec (.rzp t) s' = .next (s'.setEngine (.resp .ok v))

/-- R46: SET, WSCALE and WZP issued twice leave the slots that they leave once (SET where it takes no
draw). -/
def Obligations.RepeatedWritesChangeNothingMore : Prop :=
  (∀ (s s' : State) (t i : Nat) (x : Word), s.Inv → exec (.set t i x) s = .next s' →
    s'.draws = s.draws → ∃ s'', exec (.set t i x) s' = .next s'' ∧ s''.slots = s'.slots) ∧
  (∀ (s s' : State) (t : Nat) (v : Word), exec (.wscale t v) s = .next s' →
    ∃ s'', exec (.wscale t v) s' = .next s'' ∧ s''.slots = s'.slots) ∧
  (∀ (s s' : State) (t : Nat) (z : Int), exec (.wzp t z) s = .next s' →
    ∃ s'', exec (.wzp t z) s' = .next s'' ∧ s''.slots = s'.slots)

/-! ### Dense-forward -/

/-- R170, R171, R174: DENSE on three allocated slots, the same or not, completes with the running sum
from +0.0 over the input's indices in ascending order, one rounded product and one rounded sum each,
the bias added last; nothing else changes but the draws. -/
def Obligations.DenseRespondsTheAscendingSum : Prop :=
  ∀ (s : State) (tw tx tb : Nat) (w x b : Slot), s.allocated tw = some w →
    s.allocated tx = some x → s.allocated tb = some b →
    ∃ (acc r : Word × Nat),
      acc = (List.range (u32 x.length)).foldl (fun (acc : Word × Nat) i =>
        fadd32 acc.1
          (fmul32 (getval w i acc.2).1 (getval x i (getval w i acc.2).2).1
            (getval x i (getval w i acc.2).2).2).1
          (fmul32 (getval w i acc.2).1 (getval x i (getval w i acc.2).2).1
            (getval x i (getval w i acc.2).2).2).2) (0, s.draws) ∧
      r = fadd32 acc.1 (getval b 0 acc.2).1 (getval b 0 acc.2).2 ∧
      exec (.dense tw tx tb) s = .next ((s.setDraws r.2).setEngine (.resp .ok r.1))

/-- R175: DENSE with an empty input answers the bias, −0.0 becoming +0.0. -/
def Obligations.DenseOfEmptyInputIsTheBias : Prop :=
  ∀ (s : State) (tw tx tb : Nat) (w x b : Slot), s.allocated tw = some w →
    s.allocated tx = some x → s.allocated tb = some b → u32 x.length = 0 →
    isNaN32 (getval b 0 s.draws).1 = false →
    exec (.dense tw tx tb) s = .next ((s.setDraws (getval b 0 s.draws).2).setEngine (.resp .ok
      (if (getval b 0 s.draws).1 = 0x80000000 then 0 else (getval b 0 s.draws).1)))

/-- R175: products that are all −0.0 leave the running sum at +0.0. -/
def Obligations.NegativeZeroProductsSumToZero : Prop :=
  ∀ (w x : Slot) (k n : Nat),
    (∀ i, i < n → ∃ wv xv, (∀ j, getval w i j = (wv, j)) ∧ (∀ j, getval x i j = (xv, j)) ∧
      mulRounded wv xv = some 0x80000000) →
    denseSum w x k n = (0, k)

/-- R173: a missing weight is +0.0, its product a zero with the input's sign for a finite input and a
NaN otherwise; and the weights at or past the input's length are not read. -/
def Obligations.DenseLengthMismatch : Prop :=
  (∀ (w : Slot) (i k : Nat) (xv : Word), u32 w.length ≤ i →
    getval w i k = (0, k) ∧
    mulRounded (getval w i k).1 xv = (if bexp xv = 255 then none else some (pack32 (sign32 xv) 0))) ∧
  ∀ (w w' x b : Slot) (k : Nat), (∀ i, i < u32 x.length → ∀ j, getval w i j = getval w' i j) →
    dense w x b k = dense w' x b k
end

