-- ==== Sys2Proof/Laws/Assembler.lean ====
section
/-! SUPPORT. What the assembler's readers of digits, operands and lines answer on written text. -/

namespace Sys2Proof.Machine

/-! ### Digits -/

theorem digitValue_digitChar {base d : Nat} (hb : base ≤ 16) (h : d < base) :
    digitValue base (Nat.digitChar d) = some d := by
  have all : ∀ b ≤ 16, ∀ d < b, digitValue b (Nat.digitChar d) = some d := by decide
  exact all base hb d h

theorem digitValue_toUpper {d : Nat} (h : d < 16) :
    digitValue 16 (Nat.digitChar d).toUpper = some d := by
  have all : ∀ d < 16, digitValue 16 (Nat.digitChar d).toUpper = some d := by decide
  exact all d h

/-- One more digit at the end. -/
theorem digits_concat {base n d : Nat} {l : List Char} {c : Char} (h : digits base l = some n)
    (hc : digitValue base c = some d) : digits base (l ++ [c]) = some (base * n + d) := by
  unfold digits at *
  split at h
  · cases h
  · simp [h, hc]

theorem digits_singleton {base d : Nat} {c : Char} (hc : digitValue base c = some d) :
    digits base [c] = some d := by
  simp [digits, hc]

/-- The digits of a number, each in a spelling that `digitValue` reads, read back as the number. -/
theorem digits_map_toDigits (f : Char → Char) {base : Nat} (hb : 1 < base)
    (hf : ∀ d, d < base → digitValue base (f (Nat.digitChar d)) = some d) (n : Nat) :
    digits base ((Nat.toDigits base n).map f) = some n := by
  induction n using Nat.strongRecOn with
  | _ n ih =>
    by_cases hn : n < base
    · simpa [Nat.toDigits_of_lt_base hn] using digits_singleton (hf n hn)
    · have hm := Nat.mod_lt n (by omega : base > 0)
      rw [← Nat.div_add_mod n base,
        ← Nat.toDigits_append_toDigits hb (Nat.div_pos (by omega) (by omega)) hm, List.map_append,
        Nat.toDigits_of_lt_base hm]
      exact digits_concat (ih _ (Nat.div_lt_self (by omega) hb)) (hf _ hm)

theorem digits_toDigits {base : Nat} (hb : 1 < base) (hb' : base ≤ 16) (n : Nat) :
    digits base (Nat.toDigits base n) = some n := by
  simpa using digits_map_toDigits id hb (fun _ h => digitValue_digitChar hb' h) n

/-- Every character of a written number is a digit of its base. -/
theorem mem_toDigits {base : Nat} (hb : 1 < base) (n : Nat) :
    ∀ c ∈ Nat.toDigits base n, ∃ d, d < base ∧ c = Nat.digitChar d := by
  induction n using Nat.strongRecOn with
  | _ n ih =>
    by_cases hn : n < base
    · simp [Nat.toDigits_of_lt_base hn]
      exact ⟨n, hn, rfl⟩
    · have hm := Nat.mod_lt n (by omega : base > 0)
      rw [← Nat.div_add_mod n base,
        ← Nat.toDigits_append_toDigits hb (Nat.div_pos (by omega) (by omega)) hm,
        Nat.toDigits_of_lt_base hm]
      intro c hc
      rcases List.mem_append.1 hc with hc | hc
      · exact ih _ (Nat.div_lt_self (by omega) hb) c hc
      · exact ⟨_, hm, by simpa using hc⟩

theorem toDigits_ne_nil {base : Nat} (hb : 1 < base) (hb' : base ≤ 16) (n : Nat) :
    Nat.toDigits base n ≠ [] := by
  intro h
  have := digits_toDigits hb hb' n
  simp [h, digits] at this

theorem toDigits_injective {base m n : Nat} (hb : 1 < base) (hb' : base ≤ 16)
    (h : Nat.toDigits base m = Nat.toDigits base n) : m = n := by
  have := digits_toDigits hb hb' m
  rw [h, digits_toDigits hb hb'] at this
  exact (Option.some.inj this).symm

/-! ### Operands -/

/-- A character that stands inside an operand: no space, comma or semicolon. -/
def Plain (l : List Char) : Prop :=
  l ≠ [] ∧ ∀ c ∈ l, c.isWhitespace = false ∧ c ≠ ',' ∧ c ≠ ';'

theorem plain_digitChar {d : Nat} (h : d < 16) :
    (Nat.digitChar d).isWhitespace = false ∧ Nat.digitChar d ≠ ',' ∧ Nat.digitChar d ≠ ';' ∧
      Nat.digitChar d ≠ 'x' ∧ Nat.digitChar d ≠ '-' := by
  have all : ∀ d < 16, (Nat.digitChar d).isWhitespace = false ∧ Nat.digitChar d ≠ ',' ∧
      Nat.digitChar d ≠ ';' ∧ Nat.digitChar d ≠ 'x' ∧ Nat.digitChar d ≠ '-' := by decide
  exact all d h

theorem plain_toUpper {d : Nat} (h : d < 16) :
    (Nat.digitChar d).toUpper.isWhitespace = false ∧ (Nat.digitChar d).toUpper ≠ ',' ∧
      (Nat.digitChar d).toUpper ≠ ';' := by
  have all : ∀ d < 16, (Nat.digitChar d).toUpper.isWhitespace = false ∧
      (Nat.digitChar d).toUpper ≠ ',' ∧ (Nat.digitChar d).toUpper ≠ ';' := by decide
  exact all d h

theorem Plain.cons {c : Char} {l : List Char} (hc : c.isWhitespace = false ∧ c ≠ ',' ∧ c ≠ ';')
    (h : ∀ c ∈ l, c.isWhitespace = false ∧ c ≠ ',' ∧ c ≠ ';') : Plain (c :: l) :=
  ⟨by simp, by simpa using ⟨hc, h⟩⟩

theorem plain_toDigits (n : Nat) : Plain (Nat.toDigits 10 n) := by
  refine ⟨toDigits_ne_nil (by decide) (by decide) n, fun c hc => ?_⟩
  obtain ⟨d, hd, rfl⟩ := mem_toDigits (by decide) n c hc
  have := plain_digitChar (d := d) (by omega)
  exact ⟨this.1, this.2.1, this.2.2.1⟩

theorem plain_slotText (t : Nat) : Plain (slotText t) :=
  .cons (by decide) (plain_toDigits t).2

theorem plain_intText (z : Int) : Plain (intText z) := by
  unfold intText
  split
  · exact .cons (by decide) (plain_toDigits _).2
  · exact plain_toDigits _

theorem plain_repText (r : Rep) : Plain (repText r) := by
  cases r <;> simp [Plain, repText]

theorem plain_wordText (x : Word) : Plain (wordText x) := by
  refine .cons (by decide) fun c hc => ?_
  rcases List.mem_cons.1 hc with rfl | hc
  · decide
  · obtain ⟨e, he, rfl⟩ := List.mem_map.1 hc
    obtain ⟨d, hd, rfl⟩ := mem_toDigits (by decide) _ e he
    exact plain_toUpper hd

/-- A decimal literal reads as its number. -/
@[simp] theorem natLiteral_toDigits (n : Nat) : natLiteral (Nat.toDigits 10 n) = some n := by
  unfold natLiteral
  split
  · rename_i l h
    obtain ⟨d, hd, hc⟩ := mem_toDigits (base := 10) (by decide) n 'x' (by simp [h])
    exact absurd hc.symm (plain_digitChar (by omega)).2.2.2.1
  · exact digits_toDigits (by decide) (by decide) n

@[simp] theorem intLiteral_intText (z : Int) : intLiteral (intText z) = some z := by
  unfold intText
  split
  · simp only [intLiteral, natLiteral_toDigits, Option.map_some, Option.some.injEq]
    omega
  · have hz : ∀ l, intLiteral l = match l with
        | '-' :: l => (natLiteral l).map fun (n : Nat) => -(n : Int)
        | l => (natLiteral l).map fun (n : Nat) => (n : Int) := fun _ => rfl
    rw [hz]
    split
    · rename_i l h
      obtain ⟨d, hd, hc⟩ := mem_toDigits (base := 10) (by decide) z.natAbs '-' (by simp [h])
      exact absurd hc.symm (plain_digitChar (by omega)).2.2.2.2
    · simp only [natLiteral_toDigits, Option.map_some, Option.some.injEq]
      omega

/-- A slot's name reads as the slot where R71 gives it one, and as none from `t16` on. -/
@[simp] theorem slotName_slotText (t : Nat) :
    slotName (slotText t) = if t < 16 then some t else none := by
  have inj : ∀ u, (slotText u == slotText t) = decide (u = t) := fun u => by
    rw [Bool.eq_iff_iff, beq_iff_eq, decide_eq_true_eq]
    refine ⟨fun h => toDigits_injective (by decide) (by decide) (List.cons.inj h).2, fun h => by rw [h]⟩
  simp only [slotName, inj]
  split
  · rename_i h
    have all : ∀ t < 16, (List.range 16).find? (fun u => decide (u = t)) = some t := by decide
    exact all t h
  · rw [List.find?_eq_none]
    intro u hu
    have := List.mem_range.1 hu
    simp only [decide_eq_true_eq]
    omega

/-- The only text that names a slot is `t` with the slot's number in decimal. -/
theorem slotName_eq_some {l : List Char} {t : Nat} (h : slotName l = some t) :
    t < 16 ∧ l = slotText t := by
  have h1 := List.mem_of_find?_eq_some h
  have h2 := List.find?_some h
  exact ⟨List.mem_range.1 h1, (beq_iff_eq.1 h2).symm⟩

@[simp] theorem repName_repText (r : Rep) : repName (repText r) = some r := by
  cases r <;> decide

theorem length_toDigits_le (k n : Nat) (h : n < 16 ^ k) (hk : 0 < k) :
    (Nat.toDigits 16 n).length ≤ k := by
  induction k generalizing n with
  | zero => omega
  | succ k ih =>
    by_cases hn : n < 16
    · simp [Nat.toDigits_of_lt_base hn]
    · have hk : 0 < k := by
        rcases k with _ | k
        · simp at h; omega
        · omega
      have hm := Nat.mod_lt n (by omega : 16 > 0)
      rw [← Nat.div_add_mod n 16,
        ← Nat.toDigits_append_toDigits (by decide) (Nat.div_pos (by omega) (by omega)) hm,
        Nat.toDigits_of_lt_base hm]
      have := ih (n / 16) (by rw [Nat.pow_succ] at h; omega) hk
      simpa using this

/-- A `0x` pattern reads as the word, bit for bit. -/
@[simp] theorem floatOperand_wordText (x : Word) : floatOperand (wordText x) = some x := by
  have hl := length_toDigits_le 8 x.toNat (by have := x.isLt; omega) (by decide)
  have hd := digits_map_toDigits (base := 16) Char.toUpper (by decide)
    (fun _ h => digitValue_toUpper h) x.toNat
  simp [floatOperand, wordText, hl, hd]

/-! ### Lines -/

/-- Text with no space at either end is left alone. -/
theorem trim_eq_self {l : List Char} (h : ∀ c, l.head? = some c → c.isWhitespace = false)
    (h' : ∀ c, l.getLast? = some c → c.isWhitespace = false) : trim l = l := by
  have drop : ∀ l : List Char, (∀ c, l.head? = some c → c.isWhitespace = false) →
      l.dropWhile Char.isWhitespace = l := by
    intro l h
    cases l with
    | nil => rfl
    | cons c l => simp [h c rfl]
  rw [trim, drop l h, drop _ (by simpa using h'), List.reverse_reverse]

theorem Plain.trim_eq {l : List Char} (h : Plain l) : trim l = l :=
  trim_eq_self (fun c hc => (h.2 c (List.mem_of_head? hc)).1)
    fun c hc => (h.2 c (List.mem_of_getLast? hc)).1

/-- A space in front is dropped. -/
theorem trim_space (l : List Char) : trim (' ' :: l) = trim l := by
  have : (' ').isWhitespace = true := by decide
  simp [trim, this]

theorem splitCommas_plain {p : List Char} (h : ∀ c ∈ p, c ≠ ',') : splitCommas p = [p] := by
  induction p with
  | nil => rfl
  | cons c p ih =>
    simp only [List.mem_cons, forall_eq_or_imp] at h
    simp [splitCommas, h.1, ih h.2]

theorem splitCommas_append {p : List Char} (h : ∀ c ∈ p, c ≠ ',') (l : List Char) :
    splitCommas (p ++ ',' :: l) = p :: splitCommas l := by
  induction p with
  | nil => simp [splitCommas]
  | cons c p ih =>
    simp only [List.mem_cons, forall_eq_or_imp] at h
    simp [splitCommas, h.1, ih h.2]

theorem splitCommas_ne_nil (l : List Char) : splitCommas l ≠ [] := by
  cases l with
  | nil => simp [splitCommas]
  | cons c l =>
    unfold splitCommas
    split
    · simp
    · split <;> simp

theorem splitCommas_space (l : List Char) :
    (splitCommas (' ' :: l)).map trim = (splitCommas l).map trim := by
  cases h : splitCommas l with
  | nil => exact absurd h (splitCommas_ne_nil l)
  | cons p ps => simp [splitCommas, h, trim_space]

theorem intercalate_cons_cons (s a b : List Char) (l : List (List Char)) :
    s.intercalate (a :: b :: l) = a ++ (s ++ s.intercalate (b :: l)) := by
  simp [List.intercalate]

/-- Operands written with a comma and a space between two are read back, and the text they make has no
semicolon, and no space at either end. -/
theorem join_operands {ops : List (List Char)} (hne : ops ≠ []) (h : ∀ o ∈ ops, Plain o) :
    (splitCommas ([',', ' '].intercalate ops)).map trim = ops ∧
    (∀ c ∈ [',', ' '].intercalate ops, c ≠ ';') ∧
    (∃ c, ([',', ' '].intercalate ops).head? = some c ∧ c.isWhitespace = false) ∧
    ∃ c, ([',', ' '].intercalate ops).getLast? = some c ∧ c.isWhitespace = false := by
  have head : ∀ {p : List Char}, Plain p → ∃ c, p.head? = some c ∧ c.isWhitespace = false := by
    intro p hp
    obtain ⟨c, p, rfl⟩ := List.exists_cons_of_ne_nil hp.1
    exact ⟨c, rfl, (hp.2 c (by simp)).1⟩
  induction ops with
  | nil => exact absurd rfl hne
  | cons a l ih =>
    have ha := h a (by simp)
    cases l with
    | nil =>
      have e : [',', ' '].intercalate [a] = a := by simp [List.intercalate]
      rw [e, splitCommas_plain fun c hc => (ha.2 c hc).2.1]
      refine ⟨by simp [ha.trim_eq], fun c hc => (ha.2 c hc).2.2, head ha, ?_⟩
      exact ⟨a.getLast ha.1, List.getLast?_eq_some_getLast ha.1, (ha.2 _ (List.getLast_mem ha.1)).1⟩
    | cons b l =>
      obtain ⟨i1, i2, -, c, i4, i5⟩ := ih (by simp) fun o ho => h o (List.mem_cons_of_mem _ ho)
      obtain ⟨d, hd, hd'⟩ := head ha
      rw [intercalate_cons_cons]
      refine ⟨?_, ?_, ⟨d, by simp [hd], hd'⟩, c,
        by simp [List.getLast?_cons, i4], i5⟩
      · change (splitCommas (a ++ ',' :: ' ' :: [',', ' '].intercalate (b :: l))).map trim = _
        rw [splitCommas_append fun c hc => (ha.2 c hc).2.1, List.map_cons, splitCommas_space, i1,
          ha.trim_eq]
      · intro c hc
        simp only [List.mem_append, List.mem_cons, List.not_mem_nil, or_false] at hc
        rcases hc with hc | (rfl | rfl) | hc
        · exact (ha.2 c hc).2.2
        · decide
        · decide
        · exact i2 c hc

/-- A line of a mnemonic, a space and operands names what its form stands for. -/
theorem readLine_form {name : List Char} {ops : List (List Char)} (hn : Plain name) (hne : ops ≠ [])
    (h : ∀ o ∈ ops, Plain o) :
    readLine (name ++ ' ' :: [',', ' '].intercalate ops) = assembleForm name ops := by
  obtain ⟨h1, h2, ⟨a, h3, h4⟩, b, h5, h6⟩ := join_operands hne h
  generalize [',', ' '].intercalate ops = j at h1 h2 h3 h5
  obtain ⟨n, name, rfl⟩ := List.exists_cons_of_ne_nil hn.1
  have comment : ((n :: name) ++ ' ' :: j).takeWhile (· != ';') = (n :: name) ++ ' ' :: j := by
    rw [List.takeWhile_eq_self_iff]
    intro c hc
    rcases List.mem_append.1 hc with hc | hc
    · simpa using (hn.2 c hc).2.2
    · rcases List.mem_cons.1 hc with rfl | hc
      · decide
      · simpa using h2 c hc
  have ends : trim ((n :: name) ++ ' ' :: j) = (n :: name) ++ ' ' :: j := by
    refine trim_eq_self (fun c hc => ?_) fun c hc => ?_
    · obtain rfl : n = c := by simpa using hc
      exact (hn.2 n (by simp)).1
    · rw [List.getLast?_append, List.getLast?_cons] at hc
      simp only [h5, Option.getD_some, Option.some_or, Option.some.injEq] at hc
      exact hc ▸ h6
  have word : ((n :: name) ++ ' ' :: j).takeWhile (fun c => !c.isWhitespace) = n :: name := by
    rw [List.takeWhile_append_of_pos fun c hc => by simp [(hn.2 c hc).1]]
    have : (' ').isWhitespace = true := by decide
    simp [this]
  have rest : trim (' ' :: j) = j := by
    rw [trim_space]
    exact trim_eq_self (fun c hc => by rw [h3] at hc; exact Option.some.inj hc ▸ h4)
      fun c hc => by rw [h5] at hc; exact Option.some.inj hc ▸ h6
  simp only [readLine, comment, ends, word, List.drop_left, rest, h1]
  simp

end Sys2Proof.Machine
end

