-- ==== Sys2Proof/Laws/State.lean ====
section
/-! SUPPORT. One lemma per field per update of the state, each true by definition, so that no later
proof unfolds a record update. -/

namespace Sys2Proof.Machine

@[simp] theorem State.setSlot_slots (s : State) (t : Nat) (sl : Slot) : (s.setSlot t sl).slots = s.slots.set t sl := rfl
@[simp] theorem State.setSlot_maxLen (s : State) (t : Nat) (sl : Slot) : (s.setSlot t sl).maxLen = s.maxLen := rfl
@[simp] theorem State.setSlot_engine (s : State) (t : Nat) (sl : Slot) : (s.setSlot t sl).engine = s.engine := rfl
@[simp] theorem State.setSlot_rstHeld (s : State) (t : Nat) (sl : Slot) : (s.setSlot t sl).rstHeld = s.rstHeld := rfl
@[simp] theorem State.setSlot_draws (s : State) (t : Nat) (sl : Slot) : (s.setSlot t sl).draws = s.draws := rfl
@[simp] theorem State.setSlot_inputs (s : State) (t : Nat) (sl : Slot) : (s.setSlot t sl).inputs = s.inputs := rfl

@[simp] theorem State.setDraws_slots (s : State) (k : Nat) : (s.setDraws k).slots = s.slots := rfl
@[simp] theorem State.setDraws_maxLen (s : State) (k : Nat) : (s.setDraws k).maxLen = s.maxLen := rfl
@[simp] theorem State.setDraws_engine (s : State) (k : Nat) : (s.setDraws k).engine = s.engine := rfl
@[simp] theorem State.setDraws_rstHeld (s : State) (k : Nat) : (s.setDraws k).rstHeld = s.rstHeld := rfl
@[simp] theorem State.setDraws_draws (s : State) (k : Nat) : (s.setDraws k).draws = k := rfl
@[simp] theorem State.setDraws_inputs (s : State) (k : Nat) : (s.setDraws k).inputs = s.inputs := rfl

@[simp] theorem State.setEngine_slots (s : State) (e : Engine) : (s.setEngine e).slots = s.slots := rfl
@[simp] theorem State.setEngine_maxLen (s : State) (e : Engine) : (s.setEngine e).maxLen = s.maxLen := rfl
@[simp] theorem State.setEngine_engine (s : State) (e : Engine) : (s.setEngine e).engine = e := rfl
@[simp] theorem State.setEngine_rstHeld (s : State) (e : Engine) : (s.setEngine e).rstHeld = s.rstHeld := rfl
@[simp] theorem State.setEngine_draws (s : State) (e : Engine) : (s.setEngine e).draws = s.draws := rfl
@[simp] theorem State.setEngine_inputs (s : State) (e : Engine) : (s.setEngine e).inputs = s.inputs := rfl

@[simp] theorem State.sampled_slots (s : State) : s.sampled.slots = s.slots := rfl
@[simp] theorem State.sampled_maxLen (s : State) : s.sampled.maxLen = s.maxLen := rfl
@[simp] theorem State.sampled_engine (s : State) : s.sampled.engine = s.engine := rfl
@[simp] theorem State.sampled_rstHeld (s : State) : s.sampled.rstHeld = s.portIn.rst := rfl
@[simp] theorem State.sampled_draws (s : State) : s.sampled.draws = s.draws := rfl
@[simp] theorem State.sampled_inputs (s : State) : s.sampled.inputs = s.inputs.tail := rfl

@[simp] theorem State.loadCommand_slots (s : State) (c : Command) : (s.loadCommand c).slots = s.slots := rfl
@[simp] theorem State.loadCommand_maxLen (s : State) (c : Command) : (s.loadCommand c).maxLen = s.maxLen := rfl
@[simp] theorem State.loadCommand_engine (s : State) (c : Command) : (s.loadCommand c).engine = .busy c 0 := rfl
@[simp] theorem State.loadCommand_rstHeld (s : State) (c : Command) : (s.loadCommand c).rstHeld = s.rstHeld := rfl
@[simp] theorem State.loadCommand_draws (s : State) (c : Command) : (s.loadCommand c).draws = s.draws := rfl
@[simp] theorem State.loadCommand_inputs (s : State) (c : Command) : (s.loadCommand c).inputs = PortIn.idle :: s.inputs := rfl

@[simp] theorem resetEdge_slots (s : State) : (resetEdge s).slots = s.slots.map (fun _ => Slot.reset) := rfl
@[simp] theorem resetEdge_maxLen (s : State) : (resetEdge s).maxLen = s.maxLen := rfl
@[simp] theorem resetEdge_engine (s : State) : (resetEdge s).engine = .idle := rfl
@[simp] theorem resetEdge_rstHeld (s : State) : (resetEdge s).rstHeld = s.rstHeld := rfl
@[simp] theorem resetEdge_draws (s : State) : (resetEdge s).draws = s.draws := rfl
@[simp] theorem resetEdge_inputs (s : State) : (resetEdge s).inputs = s.inputs := rfl

@[simp] theorem accept_slots (c : Command) (s : State) : (accept c s).slots = s.slots := rfl
@[simp] theorem accept_maxLen (c : Command) (s : State) : (accept c s).maxLen = s.maxLen := rfl
@[simp] theorem accept_engine (c : Command) (s : State) : (accept c s).engine = .busy c (Config.extraCycles s.draws c.h c.a c.b) := rfl
@[simp] theorem accept_rstHeld (c : Command) (s : State) : (accept c s).rstHeld = s.rstHeld := rfl
@[simp] theorem accept_draws (c : Command) (s : State) : (accept c s).draws = s.draws + 1 := rfl
@[simp] theorem accept_inputs (c : Command) (s : State) : (accept c s).inputs = s.inputs := rfl

@[simp] theorem State.setSlot_numSlots (s : State) (t : Nat) (sl : Slot) :
    (s.setSlot t sl).numSlots = s.numSlots := by simp [State.numSlots]

@[simp] theorem resetEdge_numSlots (s : State) : (resetEdge s).numSlots = s.numSlots := by
  simp [State.numSlots]

@[simp] theorem State.setEngine_setEngine (s : State) (e e' : Engine) :
    (s.setEngine e).setEngine e' = s.setEngine e' := rfl

@[simp] theorem State.setEngine_engine_self (s : State) : s.setEngine s.engine = s := rfl

@[simp] theorem State.setDraws_draws_self (s : State) : s.setDraws s.draws = s := rfl

@[simp] theorem State.portIn_loadCommand (s : State) (c : Command) :
    (s.loadCommand c).portIn = PortIn.idle := rfl

@[simp] theorem PortIn.idle_rst : PortIn.idle.rst = false := rfl

@[simp] theorem PortIn.idle_cmdValid : PortIn.idle.cmdValid = false := rfl

@[simp] theorem PortIn.idle_rspReady : PortIn.idle.rspReady = false := rfl

end Sys2Proof.Machine
end

