-- ==== Sys2Proof/Laws/Memory.lean ====
section
/-! SUPPORT. What byte and element access to storage does: reading after writing, at the same place and
at another, and that every operation keeps the canonical form. -/

namespace Sys2Proof.Machine

namespace Memory

@[simp] theorem readByte_nil (a : Nat) : readByte [] a = fill := rfl

/-- An address below every listed one reads as an unlisted byte. -/
theorem readByte_of_forall_lt {m : Memory} {a : Nat} (h : ∀ c ∈ m, a < c.1) :
    m.readByte a = fill := by
  induction m with
  | nil => rfl
  | cons c m ih =>
    have hc := h c (by simp)
    simp only [readByte]
    rw [if_neg (by omega)]
    exact ih fun d hd => h d (by simp [hd])

/-- A write leaves every other byte as it was. -/
theorem readByte_writeByte_other (m : Memory) {a b : Nat} (v : Byte) (h : b ≠ a) :
    (m.writeByte a v).readByte b = m.readByte b := by
  induction m with
  | nil =>
    simp only [writeByte]
    split <;> simp [readByte, Ne.symm h]
  | cons c m ih =>
    obtain ⟨k, w⟩ := c
    simp only [writeByte]
    split
    · split <;> simp [readByte, Ne.symm h]
    · split
      · next hk => subst hk; split <;> simp [readByte, Ne.symm h]
      · simp [readByte, ih]

/-- A byte written to storage in canonical form reads back. -/
theorem readByte_writeByte_same {m : Memory} (hm : m.wf) (a : Nat) (v : Byte) :
    (m.writeByte a v).readByte a = v := by
  induction m with
  | nil =>
    simp only [writeByte]
    split
    · next hv => simp [hv]
    · simp [readByte]
  | cons c m ih =>
    obtain ⟨k, w⟩ := c
    obtain ⟨hp, hn⟩ := hm
    rw [List.pairwise_cons] at hp
    simp only [writeByte]
    split
    · next hak =>
      split
      · next hv =>
        rw [hv]
        apply readByte_of_forall_lt
        intro d hd
        rcases List.mem_cons.mp hd with rfl | hd
        · exact hak
        · have := hp.1 d hd; omega
      · simp [readByte]
    · split
      · next hk =>
        subst hk
        split
        · next hv => rw [hv]; exact readByte_of_forall_lt hp.1
        · simp [readByte]
      · next hk =>
        simp only [readByte]
        rw [if_neg (Ne.symm hk)]
        exact ih ⟨hp.2, fun d hd => hn d (by simp [hd])⟩

/-- A byte listed after a write is the one written or was listed before. -/
theorem mem_writeByte {m : Memory} {a : Nat} {v : Byte} {d : Host.Cell}
    (h : d ∈ m.writeByte a v) : (d = (a, v) ∧ v ≠ fill) ∨ d ∈ m := by
  induction m with
  | nil =>
    simp only [writeByte] at h
    split at h
    · simp at h
    · next hv => exact .inl ⟨by simpa using h, hv⟩
  | cons c m ih =>
    obtain ⟨k, w⟩ := c
    simp only [writeByte] at h
    split at h
    · split at h
      · exact .inr h
      · next hv =>
        rcases List.mem_cons.mp h with rfl | h
        · exact .inl ⟨rfl, hv⟩
        · exact .inr h
    · split at h
      · split at h
        · exact .inr (by simp [h])
        · next hv =>
          rcases List.mem_cons.mp h with rfl | h
          · exact .inl ⟨rfl, hv⟩
          · exact .inr (by simp [h])
      · rcases List.mem_cons.mp h with rfl | h
        · exact .inr (by simp)
        · rcases ih h with h | h
          · exact .inl h
          · exact .inr (by simp [h])

/-- A byte write keeps the canonical form. -/
theorem wf_writeByte {m : Memory} (hm : m.wf) (a : Nat) (v : Byte) : (m.writeByte a v).wf := by
  refine ⟨?_, fun d hd => ?_⟩
  · induction m with
    | nil =>
      simp only [writeByte]
      split <;> simp
    | cons c m ih =>
      obtain ⟨k, w⟩ := c
      obtain ⟨hp, hn⟩ := hm
      have hp' := List.pairwise_cons.mp hp
      simp only [writeByte]
      split
      · next hak =>
        split
        · exact hp
        · refine List.pairwise_cons.mpr ⟨fun d hd => ?_, hp⟩
          rcases List.mem_cons.mp hd with rfl | hd
          · exact hak
          · have := hp'.1 d hd; simp only at this ⊢; omega
      · split
        · next hk =>
          subst hk
          split
          · exact hp'.2
          · exact List.pairwise_cons.mpr ⟨hp'.1, hp'.2⟩
        · refine List.pairwise_cons.mpr ⟨fun d hd => ?_, ih ⟨hp'.2, fun d hd => hn d (by simp [hd])⟩⟩
          rcases mem_writeByte hd with ⟨rfl, _⟩ | hd
          · simp only; omega
          · exact hp'.1 d hd
  · rcases mem_writeByte hd with ⟨rfl, hv⟩ | hd
    · exact hv
    · exact hm.2 d hd

theorem wf_writeBytes {m : Memory} (hm : m.wf) (a n v : Nat) : (m.writeBytes a n v).wf := by
  induction n generalizing m a v with
  | zero => exact hm
  | succ n ih => exact ih (wf_writeByte hm _ _) _ _

/-- A write of `n` bytes leaves every byte outside them as it was. -/
theorem readByte_writeBytes_outside (m : Memory) {a n b : Nat} (v : Nat) (h : b < a ∨ a + n ≤ b) :
    (m.writeBytes a n v).readByte b = m.readByte b := by
  induction n generalizing m a v with
  | zero => rfl
  | succ n ih =>
    rw [writeBytes, ih _ _ (by omega), readByte_writeByte_other _ _ (by omega)]

/-- What `readBytes` gives depends on its own bytes only. -/
theorem readBytes_congr {m m' : Memory} {a n : Nat}
    (h : ∀ b, a ≤ b → b < a + n → m.readByte b = m'.readByte b) :
    m.readBytes a n = m'.readBytes a n := by
  induction n generalizing a with
  | zero => rfl
  | succ n ih =>
    simp only [readBytes]
    rw [h a (by omega) (by omega), ih fun b h1 h2 => h b (by omega) (by omega)]

theorem readBytes_writeBytes_outside (m : Memory) {a n b k : Nat} (v : Nat)
    (h : b + k ≤ a ∨ a + n ≤ b) : (m.writeBytes a n v).readBytes b k = m.readBytes b k :=
  readBytes_congr fun c h1 h2 => readByte_writeBytes_outside m v (by omega)

theorem readBytes_lt (m : Memory) (a n : Nat) : m.readBytes a n < 256 ^ n := by
  induction n generalizing a with
  | zero => simp [readBytes]
  | succ n ih =>
    have h1 := (m.readByte a).isLt
    have h2 := ih (a + 1)
    simp only [readBytes, Nat.pow_succ]
    omega

/-- Bytes written to storage in canonical form read back. -/
theorem readBytes_writeBytes_same {m : Memory} (hm : m.wf) (a n v : Nat) :
    (m.writeBytes a n v).readBytes a n = v % 256 ^ n := by
  induction n generalizing m a v with
  | zero => simp [readBytes, Nat.mod_one]
  | succ n ih =>
    rw [readBytes, writeBytes, readByte_writeBytes_outside _ _ (by omega),
      readByte_writeByte_same hm, ih (wf_writeByte hm _ _), BitVec.toNat_ofNat, Nat.pow_succ (n := 256) (m := n),
      Nat.mul_comm (256 ^ n) 256, Nat.mod_mul]

theorem addr_writeBytes {m : Memory} {a n v : Nat} {d : Host.Cell} (h : d ∈ m.writeBytes a n v) :
    (a ≤ d.1 ∧ d.1 < a + n) ∨ d ∈ m := by
  induction n generalizing m a v with
  | zero => exact .inr h
  | succ n ih =>
    rcases ih h with h | h
    · exact .inl (by omega)
    · rcases mem_writeByte h with ⟨rfl, _⟩ | h
      · exact .inl ⟨Nat.le_refl _, by simp⟩
      · exact .inr h

theorem readByte_cons_self (k : Nat) (v : Byte) (m : Memory) : readByte ((k, v) :: m) k = v := by
  simp [readByte]

theorem readByte_cons_ne {k a : Nat} (v : Byte) (m : Memory) (h : k ≠ a) :
    readByte ((k, v) :: m) a = m.readByte a := by simp [readByte, h]

/-- Memories in canonical form that read the same are equal. -/
theorem ext_of_wf {m m' : Memory} (hm : m.wf) (hm' : m'.wf)
    (h : ∀ a, m.readByte a = m'.readByte a) : m = m' := by
  induction m generalizing m' with
  | nil =>
    cases m' with
    | nil => rfl
    | cons d m' => exact absurd ((h d.1).symm.trans rfl) (by simpa [readByte] using hm'.2 d (by simp))
  | cons c m ih =>
    obtain ⟨k, v⟩ := c
    obtain ⟨hp, hn⟩ := hm
    have hp1 := List.pairwise_cons.mp hp
    have hv : v ≠ fill := hn (k, v) (by simp)
    cases m' with
    | nil => exact absurd ((readByte_cons_self k v m).symm.trans (h k)) hv
    | cons d m' =>
      obtain ⟨k', v'⟩ := d
      obtain ⟨hp', hn'⟩ := hm'
      have hp1' := List.pairwise_cons.mp hp'
      have hv' : v' ≠ fill := hn' (k', v') (by simp)
      have hk : k = k' := by
        rcases Nat.lt_trichotomy k k' with hlt | heq | hgt
        · refine absurd ((readByte_cons_self k v m).symm.trans (h k)) fun e => hv (e.trans ?_)
          apply readByte_of_forall_lt
          intro x hx
          rcases List.mem_cons.mp hx with rfl | hx
          · exact hlt
          · exact Nat.lt_trans hlt (hp1'.1 x hx)
        · exact heq
        · refine absurd ((readByte_cons_self k' v' m').symm.trans (h k').symm) fun e =>
            hv' (e.trans ?_)
          apply readByte_of_forall_lt
          intro x hx
          rcases List.mem_cons.mp hx with rfl | hx
          · exact hgt
          · exact Nat.lt_trans hgt (hp1.1 x hx)
      subst hk
      have hvv : v = v' := by
        rw [← readByte_cons_self k v m, h k, readByte_cons_self]
      subst hvv
      congr 1
      refine ih ⟨hp1.2, fun x hx => hn x (by simp [hx])⟩
        ⟨hp1'.2, fun x hx => hn' x (by simp [hx])⟩ fun a => ?_
      by_cases ha : k = a
      · subst ha
        rw [readByte_of_forall_lt hp1.1, readByte_of_forall_lt hp1'.1]
      · rw [← readByte_cons_ne v m ha, h a, readByte_cons_ne v m' ha]

end Memory

/-! ### Elements -/

/-- Get after set of one element, at its width. -/
theorem memRead_memWrite_same {m : Memory} (hm : m.wf) (i n v : Nat) :
    memRead (memWrite m i n v) i n = v % 256 ^ n := Memory.readBytes_writeBytes_same hm _ _ _

/-- An element write leaves every other element as it was. -/
theorem memRead_memWrite_other (m : Memory) {i j n k : Nat} (v : Nat) (h : j ≠ i) (hn : n ≤ 4)
    (hk : k ≤ 4) : memRead (memWrite m i n v) j k = memRead m j k :=
  Memory.readBytes_writeBytes_outside m v (by unfold cellAddr; omega)

theorem wf_memWrite {m : Memory} (hm : m.wf) (i n v : Nat) : (memWrite m i n v).wf :=
  Memory.wf_writeBytes hm _ _ _

theorem memRead_lt (m : Memory) (i n : Nat) : memRead m i n < 256 ^ n := Memory.readBytes_lt _ _ _

theorem repWidth_le (r : Rep) : repWidth r ≤ 4 := by cases r <;> decide

theorem repWidth_pos (r : Rep) : 0 < repWidth r := by cases r <;> decide

/-! ### Zero fill -/

/-- Every byte of a filled element reads as zero, and every other byte as before. -/
theorem readByte_zeroFill (m : Memory) (n w a : Nat) :
    (zeroFill m n w).readByte a = if inElements n w a then Memory.fill else m.readByte a := by
  induction m with
  | nil => simp [zeroFill]
  | cons c m ih =>
    obtain ⟨k, v⟩ := c
    simp only [zeroFill] at ih ⊢
    rw [List.filter_cons]
    split
    · next hk =>
      simp only [Memory.readByte, ih]
      split
      · next hka => subst hka; simp_all
      · rfl
    · next hk =>
      rw [ih]
      split
      · rfl
      · next ha =>
        simp only [Memory.readByte]
        rw [if_neg]
        rintro rfl
        simp_all

theorem wf_zeroFill {m : Memory} (hm : m.wf) (n w : Nat) : (zeroFill m n w).wf :=
  ⟨hm.1.sublist List.filter_sublist, fun c hc => hm.2 c (List.mem_of_mem_filter hc)⟩

theorem readBytes_eq_zero {m : Memory} {a n : Nat}
    (h : ∀ b, a ≤ b → b < a + n → m.readByte b = 0) : m.readBytes a n = 0 := by
  induction n generalizing a with
  | zero => rfl
  | succ n ih =>
    simp only [Memory.readBytes]
    rw [h a (by omega) (by omega), ih fun b h1 h2 => h b (by omega) (by omega)]
    rfl

/-- After the zero fill every filled element reads as the all-zero pattern (R32). -/
theorem memRead_zeroFill (m : Memory) {n w i : Nat} (hi : i < n) (hw : w ≤ 4) :
    memRead (zeroFill m n w) i w = 0 := by
  apply readBytes_eq_zero
  intro b h1 h2
  unfold cellAddr at h1 h2
  rw [readByte_zeroFill, if_pos]
  · rfl
  · simp only [inElements, decide_eq_true_eq]; omega

end Sys2Proof.Machine
end

