-- ==== Sys2Proof/Laws/Ops.lean ====
section
/-! SUPPORT. What the shared operations do: the slot check, the ends of a command, rounding and draws,
and the element functions of the container. -/

namespace Sys2Proof.Machine

/-! ### Slots and command ends -/

theorem State.allocated_eq_some {s : State} {t : Nat} {sl : Slot} :
    s.allocated t = some sl ↔ s.slots[t]? = some sl ∧ sl.valid = true := by
  unfold State.allocated
  cases h : s.slots[t]? with
  | none => simp
  | some sl' =>
    by_cases hv : sl'.valid
    · simp only [hv, if_true, Option.some.injEq]
      constructor
      · rintro rfl; exact ⟨rfl, hv⟩
      · exact And.left
    · simp only [hv, Option.some.injEq]
      constructor
      · simp
      · rintro ⟨rfl, h⟩; exact absurd h hv

/-- The slot check passes an allocated slot on (R152). -/
theorem withSlot_allocated {t : Nat} {s : State} {f : Slot → Result} {sl : Slot}
    (h : s.allocated t = some sl) : withSlot t s f = f sl := by simp [withSlot, h]

/-- The slot check ends with `ERR_SLOT` on any other (R202). -/
theorem withSlot_unallocated {t : Nat} {s : State} {f : Slot → Result} (h : s.allocated t = none) :
    withSlot t s f = .next (s.setEngine (.resp .errSlot 0)) := by simp [withSlot, h, raise]

@[simp] theorem respond_eq (v : Word) (s : State) :
    respond v s = .next (s.setEngine (.resp .ok v)) := rfl

@[simp] theorem raise_eq (e : Status) (s : State) :
    raise e s = .next (s.setEngine (.resp e 0)) := rfl

theorem State.lt_of_allocated {s : State} {t : Nat} {sl : Slot} (h : s.allocated t = some sl) :
    t < s.numSlots := by
  have := (State.allocated_eq_some.mp h).1
  exact (List.getElem?_eq_some_iff.mp this).1

theorem State.allocated_setSlot_same {s : State} {t : Nat} {sl : Slot} (h : t < s.numSlots)
    (hv : sl.valid = true) : (s.setSlot t sl).allocated t = some sl := by
  rw [State.allocated_eq_some]
  exact ⟨List.getElem?_set_self h, hv⟩

theorem State.slots_setSlot_other (s : State) {t u : Nat} (sl : Slot) (h : u ≠ t) :
    (s.setSlot t sl).slots[u]? = s.slots[u]? := by simp [Ne.symm h]

@[simp] theorem State.allocated_setEngine (s : State) (e : Engine) (t : Nat) :
    (s.setEngine e).allocated t = s.allocated t := rfl

@[simp] theorem State.allocated_setDraws (s : State) (k t : Nat) :
    (s.setDraws k).allocated t = s.allocated t := rfl

/-! ### Patterns -/

theorem pack32_toNat (sgn : Bool) {mag : Nat} (h : mag < 2 ^ 31) :
    (pack32 sgn mag).toNat = (if sgn then 2 ^ 31 else 0) + mag := by
  unfold pack32
  rw [BitVec.toNat_ofNat, Nat.mod_eq_of_lt]
  split <;> omega

theorem frac_eq (x : Word) : frac x = x.toNat % 2 ^ 23 := by
  simp [frac, BitVec.extractLsb'_toNat]

theorem bexp_eq (x : Word) : bexp x = x.toNat / 2 ^ 23 % 2 ^ 8 := by
  simp [bexp, BitVec.extractLsb'_toNat, Nat.shiftRight_eq_div_pow]

theorem frac_lt (x : Word) : frac x < 2 ^ 23 := (x.extractLsb' 0 23).isLt

theorem bexp_lt (x : Word) : bexp x < 2 ^ 8 := (x.extractLsb' 23 8).isLt

@[simp] theorem frac_pack32 (sgn : Bool) {mag : Nat} (h : mag < 2 ^ 31) :
    frac (pack32 sgn mag) = mag % 2 ^ 23 := by
  rw [frac_eq, pack32_toNat sgn h]
  split <;> omega

@[simp] theorem bexp_pack32 (sgn : Bool) {mag : Nat} (h : mag < 2 ^ 31) :
    bexp (pack32 sgn mag) = mag / 2 ^ 23 := by
  rw [bexp_eq, pack32_toNat sgn h]
  split <;> omega

theorem roundMag_le (num den : Nat) : roundMag num den ≤ infMag := Nat.min_le_left _ _

theorem infMag_lt : infMag < 2 ^ 31 := by decide

theorem roundMag_lt (num den : Nat) : roundMag num den < 2 ^ 31 :=
  Nat.lt_of_le_of_lt (roundMag_le num den) infMag_lt

/-- Every draw of `P_NAN` is a NaN pattern (R8). -/
@[simp] theorem isNaN32_nanPattern (d : NanDraw) : isNaN32 (nanPattern d) = true := by
  have hp := d.payload.isLt
  have hm : infMag + (d.payload.val + 1) < 2 ^ 31 := by unfold infMag; omega
  simp only [isNaN32, nanPattern, bexp_pack32 _ hm, frac_pack32 _ hm, Bool.and_eq_true, beq_iff_eq,
    bne_iff_ne]
  unfold infMag
  omega

/-- A rounded result is no NaN: NaNs come from `none` only. -/
theorem isNaN32_pack32_roundMag (sgn : Bool) (num den : Nat) :
    isNaN32 (pack32 sgn (roundMag num den)) = false := by
  have hl := roundMag_le num den
  rw [isNaN32, bexp_pack32 _ (roundMag_lt _ _), frac_pack32 _ (roundMag_lt _ _)]
  unfold infMag at hl
  simp only [Bool.and_eq_false_iff, beq_eq_false_iff_ne, bne_eq_false_iff_eq]
  omega

@[simp] theorem settleNan_some (w : Word) (k : Nat) : settleNan (some w) k = (w, k) := rfl

@[simp] theorem settleNan_none (k : Nat) :
    settleNan none k = (nanPattern (Config.freeNan k), k + 1) := rfl

/-- The draw counter never moves back. -/
theorem draws_le_settleNan (r : Option Word) (k : Nat) : k ≤ (settleNan r k).2 := by
  cases r <;> simp

/-! ### Codes -/

theorem wrap8_range (n : Int) : -128 ≤ wrap8 n ∧ wrap8 n ≤ 127 := by
  unfold wrap8
  have h1 := Int.le_bmod (x := n) (m := 256) (by decide)
  have h2 := Int.bmod_lt (x := n) (m := 256) (by decide)
  omega

/-- Every code of `quant` is an int8 code (R121). -/
theorem quant_range (x s : Word) (z : Int) (k : Nat) :
    -128 ≤ (quant x s z k).1 ∧ (quant x s z k).1 ≤ 127 := by
  simp only [quant]
  split
  · have h1 := BitVec.le_toInt (Config.freeCode (fdiv32 x s k).2 x s z)
    have h2 := BitVec.toInt_lt (x := Config.freeCode (fdiv32 x s k).2 x s z)
    simp only at h1 h2 ⊢
    omega
  · exact wrap8_range _

theorem bits8_toInt {c : Int} (h : -128 ≤ c ∧ c ≤ 127) : (bits8 c).toInt = c := by
  unfold bits8
  rw [BitVec.toInt_ofInt]
  exact Int.bmod_eq_of_le (by simp; omega) (by simp; omega)

@[simp] theorem s32_sext8 (b : Byte) : s32 (sext8 b) = b.toInt :=
  BitVec.toInt_signExtend_of_le (by decide)

/-! ### Container functions -/

/-- A read out of range gives +0.0 and takes no draw (R141). -/
theorem getval_out {sl : Slot} {i : Nat} (h : u32 sl.length ≤ i) (k : Nat) :
    getval sl i k = (0, k) := by simp [getval, h]

/-- A write out of range changes nothing and takes no draw (R142). -/
theorem setval_out {sl : Slot} {i : Nat} (h : u32 sl.length ≤ i) (x : Word) (k : Nat) :
    setval sl i x k = (sl, k) := by simp [setval, h]

/-- A write in range stores the pattern at the slot's width, and changes no descriptor field (R142). -/
theorem setval_in {sl : Slot} {i : Nat} (h : i < u32 sl.length) (x : Word) (k : Nat) :
    setval sl i x k =
      ({ sl with stor := memWrite sl.stor i (repWidth sl.rep) (storedPattern sl x k).1 },
        (storedPattern sl x k).2) := by simp [setval, Nat.not_le.mpr h]

/-- A stored pattern fits the slot's element width (R27). -/
theorem storedPattern_lt (sl : Slot) (x : Word) (k : Nat) :
    (storedPattern sl x k).1 < 256 ^ repWidth sl.rep := by
  unfold storedPattern
  cases sl.rep with
  | f32 => exact x.isLt
  | f16 => exact (enc16 x).isLt
  | i8 => exact (bits8 _).isLt

end Sys2Proof.Machine
end

