-- ==== Sys2Proof/Laws/Binary32.lean ====
section
/-! SUPPORT. The binary32 primitives: the fields of a packed pattern, when rounding is exact, and that
rounding depends on the ratio only. -/

namespace Sys2Proof.Machine

theorem sign32_eq (x : Word) : sign32 x = decide (2 ^ 31 ≤ x.toNat) := by
  unfold sign32
  rw [show x.getLsbD 31 = x.msb from (BitVec.msb_eq_getLsbD_last x).symm, BitVec.msb_eq_decide]

@[simp] theorem sign32_pack32 (sgn : Bool) {mag : Nat} (h : mag < 2 ^ 31) :
    sign32 (pack32 sgn mag) = sgn := by
  rw [sign32_eq, pack32_toNat sgn h]
  cases sgn
  · simp only [Bool.false_eq_true, if_false, decide_eq_false_iff_not]; omega
  · simp only [if_true, decide_eq_true_eq]; omega

/-- A pattern is its sign and its 31 low bits. -/
theorem pack32_eta (x : Word) : pack32 (sign32 x) (x.toNat % 2 ^ 31) = x := by
  have hx := x.isLt
  apply BitVec.eq_of_toNat_eq
  rw [pack32_toNat _ (Nat.mod_lt _ (by decide)), sign32_eq]
  simp only [decide_eq_true_eq]
  split <;> omega

/-- The 31 low bits are the exponent field and the fraction. -/
theorem low31_eq (x : Word) : x.toNat % 2 ^ 31 = bexp x * 2 ^ 23 + frac x := by
  rw [bexp_eq, frac_eq]
  omega

theorem isInf32_pack32_infMag (sgn : Bool) : isInf32 (pack32 sgn infMag) = true := by
  simp only [isInf32, bexp_pack32 _ infMag_lt, frac_pack32 _ infMag_lt]
  decide

theorem magUnits_pack32 (sgn : Bool) {mag : Nat} (h : mag < 2 ^ 31) :
    magUnits (pack32 sgn mag) =
      if mag / 2 ^ 23 = 0 then mag % 2 ^ 23
      else (2 ^ 23 + mag % 2 ^ 23) * 2 ^ (mag / 2 ^ 23 - 1) := by
  rw [magUnits, bexp_pack32 _ h, frac_pack32 _ h]

/-- A whole number of divisors divides exactly. -/
theorem roundDiv_mul (q : Nat) {den : Nat} (h : 0 < den) : roundDiv (q * den) den = q := by
  simp [roundDiv, Nat.mul_div_cancel _ h, h]

/-- Rounding a ratio depends on the ratio only. -/
theorem roundDiv_mul_mul (num den : Nat) {k : Nat} (h : 0 < k) :
    roundDiv (num * k) (den * k) = roundDiv num den := by
  simp only [roundDiv, Nat.mul_div_mul_right _ _ h, Nat.mul_mod_mul_right]
  have e1 : 2 * (num % den * k) < den * k ↔ 2 * (num % den) < den := by
    rw [← Nat.mul_assoc]; exact Nat.mul_lt_mul_right h
  have e2 : 2 * (num % den * k) = den * k ↔ 2 * (num % den) = den := by
    rw [← Nat.mul_assoc]; exact Nat.mul_left_inj (Nat.pos_iff_ne_zero.mp h)
  simp only [e1, e2]

theorem roundMag_mul_mul (num den : Nat) {k : Nat} (h : 0 < k) :
    roundMag (num * k) (den * k) = roundMag num den := by
  simp only [roundMag, Nat.mul_div_mul_right _ _ h, Nat.mul_right_comm den k,
    roundDiv_mul_mul _ _ h]

/-- A finite pattern's own magnitude rounds to itself (R12). -/
theorem roundMag_magUnits {x : Word} (hx : bexp x ≠ 255) {den : Nat} (h : 0 < den) :
    roundMag (magUnits x * den) den = x.toNat % 2 ^ 31 := by
  have hb : bexp x < 256 := bexp_lt x
  have hf := frac_lt x
  rw [low31_eq, roundMag, Nat.mul_div_cancel _ h]
  by_cases he : bexp x = 0
  · have hm : magUnits x = frac x := by simp [magUnits, he]
    have hs : (frac x).log2 - 23 = 0 := by
      by_cases h0 : frac x = 0
      · simp [h0]
      · have := (Nat.log2_lt h0).mpr hf; omega
    simp only [hm, hs, he, Nat.pow_zero, Nat.mul_one, roundDiv_mul _ h, infMag]
    omega
  · have hm : magUnits x = (2 ^ 23 + frac x) * 2 ^ (bexp x - 1) := by simp [magUnits, he]
    have hlog : (magUnits x).log2 = 23 + (bexp x - 1) := by
      rw [hm, Nat.log2_eq_iff (by positivity), Nat.pow_add,
        show 23 + (bexp x - 1) + 1 = 24 + (bexp x - 1) by omega, Nat.pow_add]
      exact ⟨Nat.mul_le_mul_right _ (by omega),
        Nat.mul_lt_mul_of_pos_right (by omega) (by positivity)⟩
    have hq : magUnits x * den = (2 ^ 23 + frac x) * (den * 2 ^ (bexp x - 1)) := by rw [hm]; ring
    rw [hlog, Nat.add_sub_cancel_left, hq, roundDiv_mul _ (by positivity)]
    unfold infMag
    omega

theorem roundMag_zero (den : Nat) : roundMag 0 den = 0 := by
  cases den with
  | zero => simp [roundMag, roundDiv, infMag]
  | succ n => simp [roundMag, roundDiv]

end Sys2Proof.Machine
end

