-- ==== Sys2Proof/Laws/Exec.lean ====
section
/-! SUPPORT. What an instruction and a step can do, said once. -/

namespace Sys2Proof.Machine

/-- What a result changes at most: the slots (never how many), the draws and the engine, which ends in
a response. -/
abbrev endsInResponse (s : State) (r : Result) : Prop :=
  ∃ (slots : List Slot) (k : Nat) (st : Status) (d : Word), slots.length = s.slots.length ∧
    r = .next { s with slots := slots, draws := k, engine := .resp st d }

theorem endsInResponse_raise (e : Status) (s : State) : endsInResponse s (raise e s) :=
  ⟨s.slots, s.draws, e, 0, rfl, rfl⟩

theorem endsInResponse_respond (v : Word) (s : State) : endsInResponse s (respond v s) :=
  ⟨s.slots, s.draws, .ok, v, rfl, rfl⟩

theorem endsInResponse_respond_setDraws (v : Word) (k : Nat) (s : State) :
    endsInResponse s (respond v (s.setDraws k)) := ⟨s.slots, k, .ok, v, rfl, rfl⟩

theorem endsInResponse_respond_setSlot (v : Word) (t : Nat) (sl : Slot) (s : State) :
    endsInResponse s (respond v (s.setSlot t sl)) :=
  ⟨s.slots.set t sl, s.draws, .ok, v, by simp, rfl⟩

theorem endsInResponse_respond_setSlot_setDraws (v : Word) (t : Nat) (sl : Slot) (k : Nat)
    (s : State) : endsInResponse s (respond v ((s.setSlot t sl).setDraws k)) :=
  ⟨s.slots.set t sl, k, .ok, v, by simp, rfl⟩

theorem endsInResponse_withSlot {t : Nat} {s : State} {f : Slot → Result}
    (h : ∀ sl, s.allocated t = some sl → endsInResponse s (f sl)) :
    endsInResponse s (withSlot t s f) := by
  unfold withSlot
  cases hs : s.allocated t with
  | none => exact endsInResponse_raise _ _
  | some sl => exact h sl hs

/-- Every instruction ends in a response, whatever the state (R201, R210). -/
theorem exec_endsInResponse (i : Instr) (s : State) : endsInResponse s (exec i s) := by
  cases i with
  | f2h x => simp only [exec, execF2h]; exact endsInResponse_respond _ _
  | h2f h => simp only [exec, execH2f]; exact endsInResponse_respond _ _
  | qnt t x =>
    simp only [exec, execQnt]
    exact endsInResponse_withSlot fun sl _ => endsInResponse_respond_setDraws _ _ _
  | dqn t c =>
    simp only [exec, execDqn]
    exact endsInResponse_withSlot fun sl _ => endsInResponse_respond_setDraws _ _ _
  | create t rep n =>
    simp only [exec, execCreate]
    split
    · exact endsInResponse_raise _ _
    · split
      · exact endsInResponse_raise _ _
      · split
        · exact endsInResponse_raise _ _
        · exact endsInResponse_respond_setSlot _ _ _ _
  | destroy t =>
    simp only [exec, execDestroy]
    exact endsInResponse_withSlot fun sl _ => endsInResponse_respond_setSlot _ _ _ _
  | set t j x =>
    simp only [exec, execSet]
    exact endsInResponse_withSlot fun sl _ => endsInResponse_respond_setSlot_setDraws _ _ _ _ _
  | get t j =>
    simp only [exec, execGet]
    exact endsInResponse_withSlot fun sl _ => endsInResponse_respond_setDraws _ _ _
  | wscale t v =>
    simp only [exec, execWscale]
    exact endsInResponse_withSlot fun sl _ => endsInResponse_respond_setSlot _ _ _ _
  | rscale t =>
    simp only [exec, execRscale]
    exact endsInResponse_withSlot fun sl _ => endsInResponse_respond _ _
  | wzp t z =>
    simp only [exec, execWzp]
    exact endsInResponse_withSlot fun sl _ => endsInResponse_respond_setSlot _ _ _ _
  | rzp t =>
    simp only [exec, execRzp]
    exact endsInResponse_withSlot fun sl _ => endsInResponse_respond _ _
  | dense tw tx tbias =>
    simp only [exec, execDense]
    exact endsInResponse_withSlot fun w _ => endsInResponse_withSlot fun x _ =>
      endsInResponse_withSlot fun b _ => endsInResponse_respond_setDraws _ _ _

/-- What a step can be (R230, R241, R242): reset, an edge that only takes its inputs, acceptance, one
more cycle of a busy engine, the rule of a command, or delivery. -/
theorem step_cases (s : State) :
    (s.portIn.rst = true ∧ step s = .next (resetEdge s.sampled)) ∨
    (s.portIn.rst = false ∧
      ((s.engine = .idle ∧ (s.cmdReady && s.portIn.cmdValid) = true ∧
          step s = .next (accept s.portIn.cmd s.sampled)) ∨
       (s.engine = .idle ∧ (s.cmdReady && s.portIn.cmdValid) = false ∧ step s = .next s.sampled) ∨
       (∃ c n, s.engine = .busy c (n + 1) ∧ step s = .next (s.sampled.setEngine (.busy c n))) ∨
       (∃ c, s.engine = .busy c 0 ∧ step s = runCommand c s.sampled) ∨
       (∃ st d, s.engine = .resp st d ∧
          ((s.portIn.rspReady = true ∧ step s = .next (s.sampled.setEngine .idle)) ∨
           (s.portIn.rspReady = false ∧ step s = .next s.sampled))))) := by
  unfold step edge
  cases hr : s.portIn.rst
  · refine .inr ⟨rfl, ?_⟩
    cases he : s.engine with
    | idle =>
      cases hc : s.cmdReady && s.portIn.cmdValid
      · exact .inr (.inl ⟨rfl, rfl, by simp [hr, hc]⟩)
      · exact .inl ⟨rfl, rfl, by simp [hr, hc]⟩
    | busy c n =>
      cases n with
      | zero => exact .inr (.inr (.inr (.inl ⟨c, rfl, by simp [hr]⟩)))
      | succ n => exact .inr (.inr (.inl ⟨c, n, rfl, by simp [hr]⟩))
    | resp st d =>
      refine .inr (.inr (.inr (.inr ⟨st, d, rfl, ?_⟩)))
      cases hd : s.portIn.rspReady
      · exact .inr ⟨rfl, by simp [hr, hd]⟩
      · exact .inl ⟨rfl, by simp [hr, hd]⟩
  · exact .inl ⟨rfl, by simp [hr]⟩

/-- A command's rule ends in a response (R201). -/
theorem runCommand_endsInResponse (c : Command) (s : State) :
    endsInResponse s (runCommand c s) := by
  unfold runCommand
  split
  · exact exec_endsInResponse _ _
  · exact endsInResponse_raise _ _

end Sys2Proof.Machine
end

