-- ==== Sys2Proof/Laws/PerInstr.lean ====
section
/-! SUPPORT. One lemma per instruction about its encoding: the header carries the instruction's opcode,
and the reserved bits and every field that the opcode does not use are zero (R61, R63, R64). -/

namespace Sys2Proof

/-- The header as R61's sum of shifted fields. -/
theorem header_toNat (op : BitVec 8) (ta tb tc : Nat) (rep : BitVec 2) :
    (header op ta tb tc rep).toNat =
      op.toNat * 2 ^ 24 + ta % 16 * 2 ^ 20 + tb % 16 * 2 ^ 16 + tc % 16 * 2 ^ 12 +
        rep.toNat * 2 ^ 10 := by
  have hr := rep.isLt
  unfold header
  simp only [BitVec.toNat_append, BitVec.toNat_ofNat]
  rw [← Nat.shiftLeft_add_eq_or_of_lt (by omega), ← Nat.shiftLeft_add_eq_or_of_lt (by omega),
    ← Nat.shiftLeft_add_eq_or_of_lt (by omega), ← Nat.shiftLeft_add_eq_or_of_lt (by omega),
    ← Nat.shiftLeft_add_eq_or_of_lt (by omega)]
  simp only [Nat.shiftLeft_eq]
  omega

/-- A field of a word as a number. -/
theorem extractLsb'_eq_iff {n : Nat} (w : Word) (lo : Nat) (v : BitVec n) :
    w.extractLsb' lo n = v ↔ w.toNat / 2 ^ lo % 2 ^ n = v.toNat := by
  rw [← BitVec.toNat_inj, BitVec.extractLsb'_toNat, Nat.shiftRight_eq_div_pow]

@[simp] theorem header_op (op : BitVec 8) (ta tb tc : Nat) (rep : BitVec 2) :
    (header op ta tb tc rep).extractLsb' 24 8 = op := by
  have h1 := op.isLt
  have h2 := rep.isLt
  rw [extractLsb'_eq_iff, header_toNat]
  omega

@[simp] theorem header_ta (op : BitVec 8) (ta tb tc : Nat) (rep : BitVec 2) :
    (header op ta tb tc rep).extractLsb' 20 4 = BitVec.ofNat 4 ta := by
  have h2 := rep.isLt
  rw [extractLsb'_eq_iff, header_toNat, BitVec.toNat_ofNat]
  omega

@[simp] theorem header_tb (op : BitVec 8) (ta tb tc : Nat) (rep : BitVec 2) :
    (header op ta tb tc rep).extractLsb' 16 4 = BitVec.ofNat 4 tb := by
  have h2 := rep.isLt
  rw [extractLsb'_eq_iff, header_toNat, BitVec.toNat_ofNat]
  omega

@[simp] theorem header_tc (op : BitVec 8) (ta tb tc : Nat) (rep : BitVec 2) :
    (header op ta tb tc rep).extractLsb' 12 4 = BitVec.ofNat 4 tc := by
  have h2 := rep.isLt
  rw [extractLsb'_eq_iff, header_toNat, BitVec.toNat_ofNat]
  omega

@[simp] theorem header_rep (op : BitVec 8) (ta tb tc : Nat) (rep : BitVec 2) :
    (header op ta tb tc rep).extractLsb' 10 2 = rep := by
  have h2 := rep.isLt
  rw [extractLsb'_eq_iff, header_toNat]
  omega

@[simp] theorem header_res (op : BitVec 8) (ta tb tc : Nat) (rep : BitVec 2) :
    (header op ta tb tc rep).extractLsb' 0 10 = 0 := by
  have h2 := rep.isLt
  rw [extractLsb'_eq_iff, header_toNat]
  change _ = 0
  omega

namespace Laws.CleanEncoding

/-- The opcode byte of an instruction (R64). -/
def opcode : Instr → BitVec 8
  | .f2h _ => 0x01
  | .h2f _ => 0x02
  | .qnt _ _ => 0x03
  | .dqn _ _ => 0x04
  | .create _ _ _ => 0x10
  | .destroy _ => 0x11
  | .set _ _ _ => 0x12
  | .get _ _ => 0x13
  | .wscale _ _ => 0x14
  | .rscale _ => 0x15
  | .wzp _ _ => 0x16
  | .rzp _ => 0x17
  | .dense _ _ _ => 0x20

/-- The command carries the instruction's opcode, with `res` and every unused field zero. -/
def Statement (i : Instr) : Prop :=
  (encode i).op = opcode i ∧ (encode i).res = 0 ∧
    ∃ u, usesOf (opcode i) = some u ∧ (encode i).unusedZero u = true

theorem f2h (x : Word) : Statement (.f2h x) :=
  ⟨header_op _ _ _ _ _, header_res _ _ _ _ _, _, rfl, by
    simp [encode, Command.unusedZero, Command.ta, Command.tb, Command.tc, Command.rep]⟩

theorem h2f (h : Nat) : Statement (.h2f h) :=
  ⟨header_op _ _ _ _ _, header_res _ _ _ _ _, _, rfl, by
    simp [encode, Command.unusedZero, Command.ta, Command.tb, Command.tc, Command.rep]⟩

theorem qnt (t : Nat) (x : Word) : Statement (.qnt t x) :=
  ⟨header_op _ _ _ _ _, header_res _ _ _ _ _, _, rfl, by
    simp [encode, Command.unusedZero, Command.ta, Command.tb, Command.tc, Command.rep]⟩

theorem dqn (t : Nat) (c : Int) : Statement (.dqn t c) :=
  ⟨header_op _ _ _ _ _, header_res _ _ _ _ _, _, rfl, by
    simp [encode, Command.unusedZero, Command.ta, Command.tb, Command.tc, Command.rep]⟩

theorem create (t : Nat) (r : Rep) (n : Nat) : Statement (.create t r n) :=
  ⟨header_op _ _ _ _ _, header_res _ _ _ _ _, _, rfl, by
    simp [encode, Command.unusedZero, Command.ta, Command.tb, Command.tc, Command.rep]⟩

theorem destroy (t : Nat) : Statement (.destroy t) :=
  ⟨header_op _ _ _ _ _, header_res _ _ _ _ _, _, rfl, by
    simp [encode, Command.unusedZero, Command.ta, Command.tb, Command.tc, Command.rep]⟩

theorem set (t i : Nat) (x : Word) : Statement (.set t i x) :=
  ⟨header_op _ _ _ _ _, header_res _ _ _ _ _, _, rfl, by
    simp [encode, Command.unusedZero, Command.ta, Command.tb, Command.tc, Command.rep]⟩

theorem get (t i : Nat) : Statement (.get t i) :=
  ⟨header_op _ _ _ _ _, header_res _ _ _ _ _, _, rfl, by
    simp [encode, Command.unusedZero, Command.ta, Command.tb, Command.tc, Command.rep]⟩

theorem wscale (t : Nat) (s : Word) : Statement (.wscale t s) :=
  ⟨header_op _ _ _ _ _, header_res _ _ _ _ _, _, rfl, by
    simp [encode, Command.unusedZero, Command.ta, Command.tb, Command.tc, Command.rep]⟩

theorem rscale (t : Nat) : Statement (.rscale t) :=
  ⟨header_op _ _ _ _ _, header_res _ _ _ _ _, _, rfl, by
    simp [encode, Command.unusedZero, Command.ta, Command.tb, Command.tc, Command.rep]⟩

theorem wzp (t : Nat) (z : Int) : Statement (.wzp t z) :=
  ⟨header_op _ _ _ _ _, header_res _ _ _ _ _, _, rfl, by
    simp [encode, Command.unusedZero, Command.ta, Command.tb, Command.tc, Command.rep]⟩

theorem rzp (t : Nat) : Statement (.rzp t) :=
  ⟨header_op _ _ _ _ _, header_res _ _ _ _ _, _, rfl, by
    simp [encode, Command.unusedZero, Command.ta, Command.tb, Command.tc, Command.rep]⟩

theorem dense (tw tx tbias : Nat) : Statement (.dense tw tx tbias) :=
  ⟨header_op _ _ _ _ _, header_res _ _ _ _ _, _, rfl, by
    simp [encode, Command.unusedZero, Command.ta, Command.tb, Command.tc, Command.rep]⟩

end Laws.CleanEncoding

end Sys2Proof
end

