-- ==== Sys2Proof/Tests/Slice0.lean ====
section
/-! SUPPORT. Small tests, and for each statement with hypotheses a state and operands that meet them.
Every expected result is a vector of 95_test_vectors.md, named by its id, or a word written out from
the encoding tables of 30_encoding.md. -/

namespace Sys2Proof.Tests

open Sys2Proof Sys2Proof.Machine

/-! ### Helpers -/

/-- The state a result holds, where it is a next state. -/
def after : Result → Option State
  | .next s => some s
  | _ => none

/-- The response a result offers. -/
def response (r : Result) : Option (Status × Word) :=
  match after r with
  | some s => match s.engine with
    | .resp st d => some (st, d)
    | _ => none
  | none => none

/-- The slot a result leaves at place `t`. -/
def slotAfter (r : Result) (t : Nat) : Option Slot := (after r).bind fun s => s.slots[t]?

/-- An allocated slot. -/
def tensor (rep : Rep) (n : Word) (scale zp : Word) (stor : Memory) : Slot :=
  ⟨true, rep, n, scale, zp, stor⟩

/-- The reset state with the first slots given. -/
def withSlots (l : List Slot) : State :=
  { State.reset with slots := l ++ List.replicate (4 - l.length) Slot.reset }

/-- P1's end state: F16 `[BCCC]`, I8 `[E0]` at scale 0.1f, F32 `[42480000]`. -/
def p1 : State :=
  withSlots [tensor .f16 1 0x3F800000 0 [(0, 0xCC), (1, 0xBC)],
    tensor .i8 1 0x3DCCCCCD 0 [(0, 0xE0)], tensor .f32 1 0x3F800000 0 [(2, 0x48), (3, 0x42)]]

/-- One I8 slot of length 1 with the given parameters and nothing but zero stored. -/
def i8 (scale zp : Word) : State := withSlots [tensor .i8 1 scale zp []]

/-! ### Decoding: words written out from R61 and R64 -/

theorem test_decode_f2h : decode ⟨0x01000000, 0, 0xBF99999A⟩ = .ok (.f2h 0xBF99999A) := by rfl
theorem test_decode_h2f : decode ⟨0x02000000, 0, 0x0000FFFF⟩ = .ok (.h2f 65535) := by rfl
theorem test_decode_qnt : decode ⟨0x03100000, 0, 0x41B33333⟩ = .ok (.qnt 1 0x41B33333) := by rfl
theorem test_decode_dqn : decode ⟨0x04000000, 0, 0xFFFFFF80⟩ = .ok (.dqn 0 (-128)) := by rfl
theorem test_decode_create : decode ⟨0x10100800, 0x401, 0⟩ = .ok (.create 1 .i8 1025) := by rfl
theorem test_decode_destroy : decode ⟨0x11F00000, 0, 0⟩ = .ok (.destroy 15) := by rfl
theorem test_decode_set : decode ⟨0x12200000, 3, 0x42480000⟩ = .ok (.set 2 3 0x42480000) := by rfl
theorem test_decode_get : decode ⟨0x13000000, 0xFFFFFFFF, 0⟩ = .ok (.get 0 4294967295) := by rfl
theorem test_decode_wscale : decode ⟨0x14100000, 0, 0x3DCCCCCD⟩ = .ok (.wscale 1 0x3DCCCCCD) := by rfl
theorem test_decode_rscale : decode ⟨0x15000000, 0, 0⟩ = .ok (.rscale 0) := by rfl
theorem test_decode_wzp : decode ⟨0x16200000, 0, 0xFFFFFFFD⟩ = .ok (.wzp 2 (-3)) := by rfl
theorem test_decode_rzp : decode ⟨0x17100000, 0, 0⟩ = .ok (.rzp 1) := by rfl
theorem test_decode_dense : decode ⟨0x20012000, 0, 0⟩ = .ok (.dense 0 1 2) := by rfl

/-- E-1, E-8, E-10, E-16, E-23, E-18: one vector for each way to be illegal. -/
theorem test_decode_illegal :
    decode ⟨0, 0, 0⟩ = .error .reservedOpcode ∧
    decode ⟨0x01000001, 0, 0x3F800000⟩ = .error .reservedBits ∧
    decode ⟨0x13010000, 0, 0⟩ = .error .unusedField ∧
    decode ⟨0x10200C00, 1, 0⟩ = .error .reservedRep ∧
    decode ⟨0x02000000, 0, 0x00010000⟩ = .error .halfOperand ∧
    decode ⟨0x04000000, 0, 0x00000080⟩ = .error .codeOperand := ⟨rfl, rfl, rfl, rfl, rfl, rfl⟩

/-- E-6, E-7, E-9, E-11, E-12, E-13, E-14, E-15, E-19, E-20, E-24. -/
theorem test_decode_illegal_more :
    decode ⟨0x01000000, 1, 0x3F800000⟩ = .error .unusedField ∧
    decode ⟨0x01100000, 0, 0x3F800000⟩ = .error .unusedField ∧
    decode ⟨0x01000400, 0, 0x3F800000⟩ = .error .unusedField ∧
    decode ⟨0x13000000, 0, 1⟩ = .error .unusedField ∧
    decode ⟨0x20012400, 0, 0⟩ = .error .unusedField ∧
    decode ⟨0x20012000, 1, 0⟩ = .error .unusedField ∧
    decode ⟨0x10200000, 1, 1⟩ = .error .unusedField ∧
    decode ⟨0x12001000, 0, 0⟩ = .error .unusedField ∧
    decode ⟨0x04000000, 0, 0xFFFFFF7F⟩ = .error .codeOperand ∧
    decode ⟨0x04000000, 0, 0x000000FF⟩ = .error .codeOperand ∧
    decode ⟨0x02000000, 0, 0x80000000⟩ = .error .halfOperand :=
  ⟨rfl, rfl, rfl, rfl, rfl, rfl, rfl, rfl, rfl, rfl, rfl⟩

/-- P1's encodings. -/
theorem test_encode_words :
    encode (.create 0 .f16 1) = ⟨0x10000400, 1, 0⟩ ∧
    encode (.wscale 1 0x3DCCCCCD) = ⟨0x14100000, 0, 0x3DCCCCCD⟩ ∧
    encode (.set 0 0 0xBF99999A) = ⟨0x12000000, 0, 0xBF99999A⟩ ∧
    encode (.dqn 0 (-32)) = ⟨0x04000000, 0, 0xFFFFFFE0⟩ ∧
    encode (.dense 0 1 2) = ⟨0x20012000, 0, 0⟩ := by decide

theorem test_table_word :
    decodeTableWord 96 0xFFFFFFE00000000004100000 = some (.dqn 1 (-32)) := by rfl

/-! ### Well-formedness: each check refuses an ill-formed term -/

theorem test_wf_slot : Instr.wellFormed (.rscale 16) = false := by decide
theorem test_wf_dense_slots : Instr.wellFormed (.dense 16 0 0) = false ∧
    Instr.wellFormed (.dense 0 16 0) = false ∧ Instr.wellFormed (.dense 0 0 16) = false := by decide
theorem test_wf_index : Instr.wellFormed (.get 0 4294967296) = false ∧
    Instr.wellFormed (.create 0 .f32 4294967296) = false := by decide
theorem test_wf_zeroPoint : Instr.wellFormed (.wzp 0 2147483648) = false ∧
    Instr.wellFormed (.wzp 0 (-2147483649)) = false := by decide
theorem test_wf_code : Instr.wellFormed (.dqn 0 128) = false ∧
    Instr.wellFormed (.dqn 0 (-129)) = false := by decide
theorem test_wf_half : Instr.wellFormed (.h2f 65536) = false := by decide

/-! ### Vectors, at most two theorems an instruction -/

/-- F2H-10, F2H-12, F2H-17, F2H-24. -/
theorem test_f2h :
    response (exec (.f2h 0x3F801FFF) State.reset) = some (.ok, 0x3C00) ∧
    response (exec (.f2h 0xBF99999A) State.reset) = some (.ok, 0xBCCC) ∧
    response (exec (.f2h 0x477FFFFF) State.reset) = some (.ok, 0x7BFF) ∧
    response (exec (.f2h 0xFFC00001) State.reset) = some (.ok, 0xFC00) := by decide
/-- F2H-5, F2H-6, F2H-4, F2H-18. -/
theorem test_f2h_edges :
    response (exec (.f2h 0x387FFFFF) State.reset) = some (.ok, 0) ∧
    response (exec (.f2h 0x38800000) State.reset) = some (.ok, 0x0400) ∧
    response (exec (.f2h 0x807FFFFF) State.reset) = some (.ok, 0x8000) ∧
    response (exec (.f2h 0x47800000) State.reset) = some (.ok, 0x7C00) := by decide
/-- H2F-4, H2F-5, H2F-8, H2F-13, H2F-15. -/
theorem test_h2f :
    response (exec (.h2f 0x83FF) State.reset) = some (.ok, 0x80000000) ∧
    response (exec (.h2f 0x0400) State.reset) = some (.ok, 0x38800000) ∧
    response (exec (.h2f 0xBCCC) State.reset) = some (.ok, 0xBF998000) ∧
    response (exec (.h2f 0xFC00) State.reset) = some (.ok, 0xC7800000) ∧
    response (exec (.h2f 0x7FFF) State.reset) = some (.ok, 0x47FFE000) := by decide
/-- Q-1, Q-3, Q-6, Q-9, Q-11. -/
theorem test_qnt :
    response (exec (.qnt 1 0x41B33333) p1) = some (.ok, 0xFFFFFFE0) ∧
    response (exec (.qnt 0 0xC02CCCCD) (i8 0x3F800000 0)) = some (.ok, 0xFFFFFFFE) ∧
    response (exec (.qnt 0 0xBF000000) (i8 0x3F800000 1)) = some (.ok, 1) ∧
    response (exec (.qnt 0 0xC3010000) (i8 0x3F800000 0)) = some (.ok, 0x7F) ∧
    response (exec (.qnt 0 0x42C80000) (i8 0x3F800000 100)) = some (.ok, 0xFFFFFFC8) := by decide
/-- Q-13, Q-14, Q-15, Q-16, Q-17. -/
theorem test_qnt_edges :
    response (exec (.qnt 0 0x3F800000) (i8 0x3F800000 0x7FFFFFFF)) = some (.ok, 0) ∧
    response (exec (.qnt 0 0x4F32D05E) (i8 0x3F800000 0)) = some (.ok, 0) ∧
    response (exec (.qnt 0 0x00000002) (i8 0x00000001 0)) = some (.ok, 2) ∧
    response (exec (.qnt 0 0x3F800000) (i8 0x7F800000 7)) = some (.ok, 7) ∧
    response (exec (.qnt 0 0x80000000) (i8 0x3F800000 0xFFFFFFFD)) = some (.ok, 0xFFFFFFFD) := by
  decide
/-- DQ-1, DQ-5, DQ-6, DQ-9, DQ-15. -/
theorem test_dqn :
    response (exec (.dqn 1 (-32)) p1) = some (.ok, 0xC04CCCCD) ∧
    response (exec (.dqn 0 127) (i8 0x3F800000 0xFFFFFF80)) = some (.ok, 0x437F0000) ∧
    response (exec (.dqn 0 (-42)) (i8 0x3DCCCCCD 0)) = some (.ok, 0xC0866667) ∧
    response (exec (.dqn 0 (-5)) (i8 0 0)) = some (.ok, 0x80000000) ∧
    response (exec (.dqn 0 100) (i8 0x3F800000 0x7FFFFFFF)) = some (.ok, 0xCEFFFFFF) := by decide
/-- DQ-12, DQ-16, DQ-17, DQ-18, and INV-1: 4.5 at scale 0.3f comes from code 15 and goes to 14. -/
theorem test_dqn_edges :
    response (exec (.dqn 0 15) (i8 0x3E99999A 0)) = some (.ok, 0x40900000) ∧
    response (exec (.qnt 0 0x40900000) (i8 0x3E99999A 0)) = some (.ok, 14) ∧
    response (exec (.dqn 0 (-3)) (i8 0x7F800000 0)) = some (.ok, 0xFF800000) ∧
    response (exec (.dqn 0 0) (i8 0x3F800000 0x80000000)) = some (.ok, 0x4F000000) ∧
    response (exec (.dqn 0 1) (i8 0x00000001 0)) = some (.ok, 1) ∧
    response (exec (.dqn 0 127) (i8 0x7F7FFFFF 0xFFFFFF80)) = some (.ok, 0x7F800000) := by
  decide +kernel
/-- C-E-6 and R144's descriptor: a stale element is filled with zero. -/
theorem test_create :
    slotAfter (exec (.create 3 .f32 1024) p1) 3 =
      some ⟨true, .f32, 1024, 0x3F800000, 0, []⟩ ∧
    slotAfter (exec (.create 0 .f16 1) (withSlots [⟨false, .f32, 1, 0, 0, [(0, 7)]⟩])) 0 =
      some ⟨true, .f16, 1, 0x3F800000, 0, []⟩ := by decide
/-- C-E-2, C-E-3, C-E-5, P2 step 5. -/
theorem test_create_errors :
    response (exec (.create 0 .f32 4294967295) p1) = some (.errBusy, 0) ∧
    response (exec (.create 15 .f32 1) p1) = some (.errSlot, 0) ∧
    response (exec (.create 3 .f32 4294967295) p1) = some (.errAlloc, 0) ∧
    response (exec (.create 3 .i8 1025) p1) = some (.errAlloc, 0) := by decide
/-- C-E-8, C-E-9. -/
theorem test_destroy :
    response (exec (.destroy 0) p1) = some (.ok, 0) ∧
    (slotAfter (exec (.destroy 0) p1) 0).map Slot.valid = some false ∧
    response (exec (.destroy 3) p1) = some (.errSlot, 0) := by decide
/-- C-F32-1, C-F16-6, C-I8-4. -/
theorem test_set :
    (slotAfter (exec (.set 2 0 0x7FC12345) p1) 2).map (memRead ·.stor 0 4) = some 0x7FC12345 ∧
    (slotAfter (exec (.set 0 0 0xBF99999A) p1) 0).map (memRead ·.stor 0 2) = some 0xBCCC ∧
    (slotAfter (exec (.set 0 0 0x41B33333) (i8 0x3DCCCCCD 10)) 0).map (memRead ·.stor 0 1) =
      some 0xEA := by decide
/-- P1 steps 8 to 10, C-I8-5, C-OOR-4. -/
theorem test_get :
    response (exec (.get 0 0) p1) = some (.ok, 0xBF998000) ∧
    response (exec (.get 1 0) p1) = some (.ok, 0xC04CCCCD) ∧
    response (exec (.get 2 0) p1) = some (.ok, 0x42480000) ∧
    response (exec (.get 0 0) (i8 0x3F800000 5)) = some (.ok, 0xC0A00000) ∧
    response (exec (.get 0 1) (i8 0x3F800000 5)) = some (.ok, 0) := by decide
/-- C-P-4. -/
theorem test_wscale :
    (slotAfter (exec (.wscale 2 0x7FC00001) p1) 2).map Slot.scale = some 0x7FC00001 ∧
    response (exec (.rscale 1) p1) = some (.ok, 0x3DCCCCCD) := by decide
/-- C-P-3, R150. -/
theorem test_wzp :
    (slotAfter (exec (.wzp 2 (-3)) p1) 2).map Slot.zp = some 0xFFFFFFFD ∧
    response (exec (.rzp 0) (i8 0 0xFFFFFFFD)) = some (.ok, 0xFFFFFFFD) := by decide
/-- DN-1, the aliasing vector of section 5 with 0.75, DN-2's signed zero. -/
theorem test_dense :
    response (exec (.dense 0 1 2) p1) = some (.ok, 0x4257599A) ∧
    response (exec (.dense 0 0 0)
      (withSlots [tensor .f32 1 0x3F800000 0 [(2, 0x40), (3, 0x3F)]])) = some (.ok, 0x3FA80000) ∧
    response (exec (.dense 0 0 1) (withSlots [tensor .f32 0 0x3F800000 0 [],
      tensor .f32 1 0x3F800000 0 [(3, 0x80)]])) = some (.ok, 0) := by decide
/-- DN-8 (ascending order), DN-11 (mixed representations, short weights), DN-9 (unfused). -/
theorem test_dense_rounding :
    response (exec (.dense 0 1 2) (withSlots [
      tensor .f32 3 0 0 [(2, 0x80), (3, 0x3F), (6, 0x80), (7, 0x3F), (10, 0x80), (11, 0x3F)],
      tensor .f32 3 0 0 [(2, 0x80), (3, 0x4B), (6, 0x80), (7, 0x3F), (10, 0x80), (11, 0x3F)],
      tensor .f32 1 0 0 []])) = some (.ok, 0x4B800000) ∧
    response (exec (.dense 0 1 2) (withSlots [tensor .f16 2 0 0 [(1, 0x38), (5, 0xC0)],
      tensor .i8 3 0x3E800000 0xFFFFFFFD [(0, 0x01), (4, 0x07), (8, 0xF9)],
      tensor .f32 1 0 0 [(2, 0x40), (3, 0x3F)]])) = some (.ok, 0xC0700000) ∧
    response (exec (.dense 0 1 2) (withSlots [tensor .f32 1 0 0 [(1, 0x08), (2, 0x80), (3, 0x3F)],
      tensor .f32 1 0 0 [(1, 0x08), (2, 0x80), (3, 0x3F)],
      tensor .f32 1 0 0 [(1, 0x10), (2, 0x80), (3, 0xBF)]])) = some (.ok, 0) := by decide

/-! ### The clock edge -/

/-- P1's host: one command offered. -/
def offer (c : Command) : PortIn := ⟨false, true, c, false⟩

/-- The next step after `withFetchWord` runs the command (H2F-8's word). -/
theorem test_step_runs :
    response (step (State.reset.withFetchWord 96 0x0000BCCC0000000002000000)) =
      some (.ok, 0xBF998000) := by decide
/-- E-1: the all-zero command. -/
theorem test_step_illegal :
    response (step (State.reset.withFetchWord 96 0)) = some (.errIllegal, 0) := by decide
/-- P1's end state with `rst` high at the coming edge, busy with its DENSE. -/
def resetNow : State :=
  { p1 with engine := .busy ⟨0x20012000, 0, 0⟩ 0, inputs := [⟨true, false, ⟨0, 0, 0⟩, false⟩] }
/-- A response offered, `rsp_ready` at the coming edge as given. -/
def offering (ready : Bool) : State :=
  { p1 with engine := .resp .ok 5, inputs := [⟨false, false, ⟨0, 0, 0⟩, ready⟩] }
/-- P6: reset while busy drops the command and every slot. -/
theorem test_step_reset :
    (after (step resetNow)).map
        (fun s => (s.engine, s.slots, s.cmdReady)) =
      some (.idle, List.replicate 4 Slot.reset, false) := by decide
/-- R241: a response is held, and then taken. -/
theorem test_step_delivery :
    (after (step (offering false))).map State.rspPort = some (some (0, 5)) ∧
    (after (step (offering true))).map State.engine = some .idle := by decide

/-! ### The assembler (R70 to R72) -/

/-- R125's example, with a comment. -/
theorem test_assemble_dqn :
    assembleLine ['D', 'Q', 'N', ' ', 't', '1', ',', ' ', '-', '3', '2', ' ', ';', ' ', 'x'] =
      some [⟨0x04100000, 0, 0xFFFFFFE0⟩] := by decide
/-- R71's `-1.2f` is 0xBF99999A. -/
theorem test_assemble_decimal :
    assembleLine ['F', '2', 'H', ' ', '-', '1', '.', '2', 'f'] =
      some [⟨0x01000000, 0, 0xBF99999A⟩] := by decide
/-- R72: `RECREATE t3, I8, 0x10`. -/
theorem test_assemble_recreate :
    assembleLine ['R', 'E', 'C', 'R', 'E', 'A', 'T', 'E', ' ', 't', '3', ',', 'I', '8', ',',
      '0', 'x', '1', '0'] = some [⟨0x11300000, 0, 0⟩, ⟨0x10300800, 16, 0⟩] := by decide
/-- R71: an operand outside its range is an assembly error. -/
theorem test_assemble_range :
    assembleLine ['D', 'Q', 'N', ' ', 't', '1', ',', '1', '2', '8'] = none ∧
    assembleLine ['R', 'Z', 'P', ' ', 't', '1', '6'] = none := by decide
/-- R71: the slots are `t0` to `t15` only. -/
theorem test_slot_names :
    slotName ['t', '0'] = some 0 ∧ slotName ['t', '1', '5'] = some 15 ∧ slotName ['t', '1', '6'] = none ∧
    slotName ['t', '0', '0'] = none ∧ slotName ['t', '0', '0', '7'] = none ∧
    slotName ['t', '0', '0', '1', '5'] = none ∧ slotName ['t'] = none := by decide

/-! ### Witnesses: what meets each statement's hypotheses -/

theorem witness_wellFormed :
    Instr.wellFormed (.set 15 4294967295 0xFFFFFFFF) = true ∧
    Instr.wellFormed (.dqn 0 (-128)) = true ∧ Instr.wellFormed (.wzp 15 (-2147483648)) = true ∧
    Instr.wellFormed (.h2f 65535) = true := by decide

theorem witness_TableRowsSelectWhatDecodes :
    opcodeRows[12]? = some ⟨0xFFFFFFFFFFFFFFFFFF000FFF#96, 0x20000000#96⟩ ∧
    (Row.selects ⟨0xFFFFFFFFFFFFFFFFFF000FFF#96, 0x20000000#96⟩
      (Command.bits ⟨0x20012000, 0, 0⟩)) = true := by decide

/-- A state that runs `c` at the coming edge. -/
def running (c : Command) : State := { p1 with engine := .busy c 0 }

theorem witness_StepRunsTheDecodedCommand :
    (running ⟨0x15100000, 0, 0⟩).engine = .busy ⟨0x15100000, 0, 0⟩ 0 ∧
    (running ⟨0x15100000, 0, 0⟩).portIn.rst = false ∧
    decode ⟨0x15100000, 0, 0⟩ = .ok (.rscale 1) ∧
    decodeTableWord 96 0x15100000 = some (.rscale 1) := ⟨rfl, rfl, rfl, rfl⟩

theorem witness_UndecodableCommandEndsIllegal :
    (running ⟨0x15100001, 0, 0⟩).engine = .busy ⟨0x15100001, 0, 0⟩ 0 ∧
    (running ⟨0x15100001, 0, 0⟩).portIn.rst = false ∧
    decode ⟨0x15100001, 0, 0⟩ = .error .reservedBits := ⟨rfl, rfl, rfl⟩

/-- `RZP t15` gives its command, and `H2F 65536` names an instruction out of its range. -/
theorem witness_AssembledCommandsDecode :
    assembleLine ['R', 'Z', 'P', ' ', 't', '1', '5'] = some [⟨0x17F00000, 0, 0⟩] ∧
    readLine ['H', '2', 'F', ' ', '6', '5', '5', '3', '6'] = some [.h2f 65536] ∧
    Instr.wellFormed (.h2f 65536) = false := by decide

theorem witness_WrittenInstructionsAssemble :
    writeLine (.set 15 7 0xBF8CCCCD) = ['S', 'E', 'T', ' ', 't', '1', '5', ',', ' ', '7', ',', ' ',
      '0', 'x', 'B', 'F', '8', 'C', 'C', 'C', 'C', 'D'] ∧
    Instr.wellFormed (.set 15 7 0xBF8CCCCD) = true ∧
    writeLine (.rscale 16) = ['R', 'S', 'C', 'A', 'L', 'E', ' ', 't', '1', '6'] ∧
    Instr.wellFormed (.rscale 16) = false := by decide

theorem witness_ReservedOpcodesAreIllegal :
    (Command.mk 0 0 0).op.toNat ∉ definedOpcodes ∧
    (Command.mk 0x21000000 0 0).op.toNat ∉ definedOpcodes := by decide

/-- Idle with a command offered. -/
def offered : State := { p1 with inputs := [offer ⟨0x20012000, 0, 0⟩] }

theorem witness_TransfersFollowTheHandshake :
    (offered.portIn.rst = false ∧ offered.cmdReady = true ∧ offered.portIn.cmdValid = true) ∧
    (p1.portIn.rst = false ∧ p1.engine = .idle ∧ p1.portIn.cmdValid = false) ∧
    (({ offered with rstHeld := true } : State).portIn.rst = false ∧
      ({ offered with rstHeld := true } : State).engine = .idle ∧
      ({ offered with rstHeld := true } : State).cmdReady = false) ∧
    ((offering true).portIn.rst = false ∧ (offering true).rspValid = true ∧
      (offering true).portIn.rspReady = true) ∧
    ((offering false).portIn.rst = false ∧ (offering false).rspValid = true ∧
      (offering false).portIn.rspReady = false) := by decide

theorem witness_BusyEdgesTouchNothing :
    ({ p1 with engine := .busy ⟨0, 0, 0⟩ 3 } : State).engine = .busy ⟨0, 0, 0⟩ (2 + 1) ∧
    ({ p1 with engine := .busy ⟨0, 0, 0⟩ 3 } : State).portIn.rst = false := by decide

/-- Busy, with one edge of reset to come and then a low edge. -/
def resetComing : State :=
  { p1 with engine := .busy ⟨0x20012000, 0, 0⟩ 5, inputs := [⟨true, false, ⟨0, 0, 0⟩, false⟩] }

theorem witness_ResetEdgeLeavesTheResetState :
    resetComing.portIn.rst = true ∧ ∃ t, step resetComing = .next t ∧ t.portIn.rst = false :=
  ⟨rfl, _, rfl, rfl⟩

theorem witness_EveryAcceptedCommandResponds :
    offered.cmdReady = true ∧ offered.portIn.cmdValid = true ∧
    ∀ p ∈ offered.inputs, p.rst = false := by decide

theorem witness_EveryStepKeepsTheInvariant :
    (running ⟨0x12200000, 0, 0x7FC12345⟩).Inv ∧
    ∃ t, step (running ⟨0x12200000, 0, 0x7FC12345⟩) = .next t := ⟨by decide, _, rfl⟩

theorem witness_EveryStepKeepsHalfElementsEncoded :
    (running ⟨0x12000000, 0, 0x7F800001⟩).Inv ∧
    (∀ sl ∈ (running ⟨0x12000000, 0, 0x7F800001⟩).slots, sl.HalfInv) ∧
    ∃ t, step (running ⟨0x12000000, 0, 0x7F800001⟩) = .next t := by
  refine ⟨by decide, ?_, _, rfl⟩
  unfold Slot.HalfInv
  decide

theorem witness_RepAndLengthFixedForLife :
    ∃ t, step (running ⟨0x14100000, 0, 0⟩) = .next t ∧
      ∃ a b, (running ⟨0x14100000, 0, 0⟩).slots[1]? = some a ∧ t.slots[1]? = some b ∧
        a.valid = true ∧ b.valid = true := ⟨_, rfl, _, _, rfl, rfl, rfl, rfl⟩

theorem witness_ErrorsChangeNothing :
    ∃ t, runCommand ⟨0x10000000, 1, 0⟩ p1 = .next t ∧ t.engine = .resp .errBusy 0 ∧
      Status.errBusy ≠ .ok := ⟨_, rfl, rfl, by decide⟩

theorem witness_OnlyTheTargetSlotChanges :
    ∃ t, exec (.set 2 0 0x3F800000) p1 = .next t ∧
      targetOf (.set 2 0 0x3F800000) ≠ some 1 ∧ targetOf (.get 2 0) = none :=
  ⟨_, rfl, by decide, rfl⟩

theorem witness_MissingSlotEndsWithErrSlot :
    (4 ∈ namedSlots (.create 4 .f32 1) ∧ p1.numSlots ≤ 4) ∧
    (3 ∈ namedSlots (.dense 0 1 3) ∧ needsAllocated (.dense 0 1 3) = true ∧
      p1.allocated 3 = none) := by decide

/-- P1's end state with something else in the unallocated slot 3 and past slot 2's length. -/
def p1' : State :=
  { p1 with slots := [tensor .f16 1 0x3F800000 0 [(0, 0xCC), (1, 0xBC)],
    tensor .i8 1 0x3DCCCCCD 0 [(0, 0xE0)],
    tensor .f32 1 0x3F800000 0 [(2, 0x48), (3, 0x42), (4, 9)], ⟨false, .i8, 7, 1, 2, [(0, 3)]⟩] }

theorem witness_UnobservableStateIsNeverRead : p1.Inv ∧ p1'.Inv ∧ p1.sameView p1' ∧ p1 ≠ p1' := by
  refine ⟨by decide, by decide, ⟨?_, rfl, rfl, rfl, rfl, rfl⟩, by decide⟩
  refine .cons ?_ (.cons ?_ (.cons ?_ (.cons ?_ .nil))) <;> unfold Slot.sameView <;> decide

theorem witness_halves :
    (31744 + 1023 < 2 ^ 16) ∧ (0x7C01#16).toNat / 2 ^ 10 % 32 = 31 ∧
    (0x83FF#16).toNat / 2 ^ 10 % 32 = 0 ∧
    ((0x0400#16).toNat / 2 ^ 10 % 32 ≠ 0 ∧ (0x0400#16).toNat / 2 ^ 10 % 32 ≠ 31) := by decide

theorem witness_binary32_classes :
    (113 ≤ bexp 0x38800000 ∧ bexp 0x38800000 ≤ 142 ∧ (0x38800000#32).toNat % 2 ^ 13 = 0) ∧
    (113 ≤ bexp 0x477FFFFF ∧ bexp 0x477FFFFF ≤ 142) ∧ isZero32 0x80000000 = true ∧
    bexp 0x387FFFFF < 113 ∧ 143 ≤ bexp 0x7FC00000 ∧ isNaN32 0x80000000 = false := by decide

/-- A tie between two neighbours, one unit past the first patterns that are one unit apart. -/
theorem witness_RoundingIsToNearestEven :
    (0 : Nat) < 1 ∧ roundMag (2 ^ 24 + 1) 1 < infMag ∧ 2 ^ 24 + 1 < infMag ∧
    2 ^ 24 + 1 ≠ roundMag (2 ^ 24 + 1) 1 ∧
    ((magOf (roundMag (2 ^ 24 + 1) 1) * (1 : Nat) : Int) - (2 ^ 24 + 1 : Nat)).natAbs =
      ((magOf (2 ^ 24 + 1) * (1 : Nat) : Int) - (2 ^ 24 + 1 : Nat)).natAbs := by decide

theorem witness_DoublingCommutesWithRounding :
    (0 : Nat) < 3 ∧ 2 ^ 23 * 3 ≤ 2 ^ 25 ∧ roundMag (2 ^ 25) 3 + 2 ^ 23 < infMag := by decide

theorem witness_SmallIntegersConvertExactly : (-16777216 : Int).natAbs ≤ 2 ^ 24 := by decide

theorem witness_QntRespondsTheWrappedCode :
    p1.allocated 1 = some (tensor .i8 1 0x3DCCCCCD 0 [(0, 0xE0)]) ∧
    divRounded 0x41B33333 0x3DCCCCCD = some 0x43600000 ∧ finite32 0x43600000 := by decide

theorem witness_QuantCornerCases :
    (finite32 0x3F800000 ∧ isInf32 0xFF800000 = true) ∧
    (divRounded 0xBF333333 0x3F800000 = some 0xBF333333 ∧ finite32 0xBF333333 ∧
      magUnits 0xBF333333 < 2 ^ 149) := by decide

theorem witness_DqnRespondsTheRoundedProduct :
    p1.allocated 1 = some (tensor .i8 1 0x3DCCCCCD 0 [(0, 0xE0)]) ∧ finite32 0x3DCCCCCD ∧
    codeOk (-32) = true ∧ ((-32 : Int) - s32 0).natAbs ≤ 2 ^ 24 := by decide

theorem witness_DqnCornerCases :
    ((i8 0x80000000 0).allocated 0 = some (tensor .i8 1 0x80000000 0 []) ∧
      isZero32 0x80000000 = true) ∧
    ((i8 0x7F800000 3).allocated 0 = some (tensor .i8 1 0x7F800000 3 []) ∧
      isInf32 0x7F800000 = true ∧ (-128 : Int) ≠ s32 3 ∧ (3 : Int) = s32 3) ∧
    ((i8 0x7FC00000 0).allocated 0 = some (tensor .i8 1 0x7FC00000 0 []) ∧
      isNaN32 0x7FC00000 = true) ∧ codeOk (-128) = true ∧ codeOk 3 = true := by decide

theorem witness_CreateErrorsInOrder :
    p1.numSlots ≤ 4 ∧
    (∃ sl, p1.slots[0]? = some sl ∧ sl.valid = true) ∧
    (∃ sl, p1.slots[3]? = some sl ∧ sl.valid = false ∧ p1.maxLen < 1025) :=
  ⟨by decide, ⟨_, rfl, rfl⟩, ⟨_, rfl, rfl, by decide⟩⟩

theorem witness_CreateMakesAZeroTensor :
    p1'.slots[3]? = some ⟨false, .i8, 7, 1, 2, [(0, 3)]⟩ ∧ 1024 ≤ p1'.maxLen ∧ 1024 < 2 ^ 32 ∧
    inElements 1024 1 4096 = false := by decide

theorem witness_ZeroFillIsTheWriteLoop : Memory.wf [(0, 1), (3, 2), (9, 255)] := by decide

theorem witness_allocated_in_range :
    (p1.allocated 0 = some (tensor .f16 1 0x3F800000 0 [(0, 0xCC), (1, 0xBC)]) ∧
      Memory.wf [(0, 0xCC), (1, 0xBC)]) ∧
    (p1.allocated 1 = some (tensor .i8 1 0x3DCCCCCD 0 [(0, 0xE0)]) ∧ Memory.wf [(0, 0xE0)]) ∧
    (p1.allocated 2 = some (tensor .f32 1 0x3F800000 0 [(2, 0x48), (3, 0x42)]) ∧
      Memory.wf [(2, 0x48), (3, 0x42)]) ∧
    0 < u32 1 ∧ u32 1 ≤ 1 := by decide

theorem witness_DestroyEndsEveryLaterUse :
    p1.allocated 2 = some (tensor .f32 1 0x3F800000 0 [(2, 0x48), (3, 0x42)]) ∧
    needsAllocated (.dense 0 0 2) = true ∧ 2 ∈ namedSlots (.dense 0 0 2) := by decide

theorem witness_ZeroPointReadsBackAsWritten :
    zeroPointOk (-2147483648) = true ∧ zeroPointOk 2147483647 = true := by decide

theorem witness_RepeatedWritesChangeNothingMore :
    p1.Inv ∧ (∃ t, exec (.set 1 0 0x41B33333) p1 = .next t ∧ t.draws = p1.draws) ∧
    (∃ t, exec (.wscale 1 0) p1 = .next t) ∧ ∃ t, exec (.wzp 1 (-1)) p1 = .next t := by
  refine ⟨by decide, ?_, ⟨_, rfl⟩, ⟨_, rfl⟩⟩
  obtain ⟨t, ht⟩ : ∃ t, exec (.set 1 0 0x41B33333) p1 = .next t := by
    obtain ⟨_, _, _, _, _, h⟩ := exec_endsInResponse (.set 1 0 0x41B33333) p1
    exact ⟨_, h⟩
  have h : (after (exec (.set 1 0 0x41B33333) p1)).map State.draws = some p1.draws := by decide
  rw [ht] at h
  exact ⟨t, ht, by simpa [after] using h⟩

theorem witness_DenseOfEmptyInputIsTheBias :
    (withSlots [tensor .f32 0 0 0 []]).allocated 0 = some (tensor .f32 0 0 0 []) ∧
    u32 0 = 0 ∧ isNaN32 (getval (tensor .f32 0 0 0 []) 0 0).1 = false := by decide

theorem witness_NegativeZeroProductsSumToZero :
    ∀ i, i < 1 → ∃ wv xv, (∀ j, getval (tensor .f32 1 0 0 [(3, 0x80)]) i j = (wv, j)) ∧
      (∀ j, getval (tensor .f32 1 0 0 [(2, 0x80), (3, 0x3F)]) i j = (xv, j)) ∧
      mulRounded wv xv = some 0x80000000 := by
  intro i hi
  obtain rfl : i = 0 := by omega
  exact ⟨0x80000000, 0x3F800000, fun _ => rfl, fun _ => rfl, by decide⟩

theorem witness_DenseLengthMismatch :
    u32 (tensor .f32 1 0 0 []).length ≤ 1 ∧
    ∀ i, i < u32 (tensor .f32 1 0 0 []).length → ∀ j,
      getval (tensor .f32 2 0 0 [(4, 1)]) i j = getval (tensor .f32 3 0 0 [(4, 2)]) i j := by
  refine ⟨by decide, fun i hi j => ?_⟩
  obtain rfl : i = 0 := by simp [tensor, u32] at hi; omega
  rfl

end Sys2Proof.Tests
end

section
/-! SUPPORT. The writes that commands can make to a slot, said once; what an instruction and a step can
do to the slots; and, from that, the invariant of R8, R22 and R25. -/

namespace Sys2Proof.Machine

/-! ### The writes of commands -/

/-- What one command can make of slot `a`: the writes of R144, R145, R146, R148 and R150, each with the
check that its rule makes before it. -/
inductive Slot.Change (maxLen : Nat) (a : Slot) : Slot → Prop
  | create (rep : Rep) (n : Nat) : a.valid = false → n ≤ maxLen → a.Change maxLen (a.created rep n)
  | destroy : a.valid = true → a.Change maxLen { a with valid := false }
  | set (i : Nat) (x : Word) (k : Nat) : a.valid = true → a.Change maxLen (setval a i x k).1
  | wscale (v : Word) : a.valid = true → a.Change maxLen { a with scale := v }
  | wzp (z : Int) : a.valid = true → a.Change maxLen { a with zp := BitVec.ofInt 32 z }

/-- A result leaves the slots of `s` as they are, or makes one command's write to slot `target`. -/
def WritesAtMost (target : Option Nat) (s : State) (r : Result) : Prop :=
  ∀ t, r = .next t → t.slots = s.slots ∨
    ∃ u a b, target = some u ∧ s.slots[u]? = some a ∧ a.Change s.maxLen b ∧
      t.slots = s.slots.set u b

theorem writesAtMost_next_of_slots {target : Option Nat} {s t : State} (h : t.slots = s.slots) :
    WritesAtMost target s (.next t) := by
  rintro _ ⟨⟩
  exact .inl h

theorem writesAtMost_next_of_set {u : Nat} {s t : State} {a b : Slot} (ha : s.slots[u]? = some a)
    (hab : a.Change s.maxLen b) (h : t.slots = s.slots.set u b) :
    WritesAtMost (some u) s (.next t) := by
  rintro _ ⟨⟩
  exact .inr ⟨u, a, b, rfl, ha, hab, h⟩

/-- The slot check writes nothing itself, and passes on an allocated slot only. -/
theorem writesAtMost_withSlot {target : Option Nat} {u : Nat} {s : State} {f : Slot → Result}
    (h : ∀ sl, s.slots[u]? = some sl → sl.valid = true → WritesAtMost target s (f sl)) :
    WritesAtMost target s (withSlot u s f) := by
  cases hs : s.allocated u with
  | none =>
    rw [withSlot_unallocated hs]
    exact writesAtMost_next_of_slots rfl
  | some sl =>
    rw [withSlot_allocated hs]
    obtain ⟨hsl, hv⟩ := State.allocated_eq_some.mp hs
    exact h sl hsl hv

/-- An instruction that reads one slot and responds writes no slot. -/
theorem writesAtMost_withSlot_respond (target : Option Nat) (u : Nat) (s : State) (v : Slot → Word)
    (k : Slot → Nat) :
    WritesAtMost target s (withSlot u s fun sl => respond (v sl) (s.setDraws (k sl))) :=
  writesAtMost_withSlot fun _ _ _ => writesAtMost_next_of_slots rfl

theorem execCreate_writesAtMost (u : Nat) (rep : Rep) (n : Nat) (s : State) :
    WritesAtMost (some u) s (execCreate u rep n s) := by
  unfold execCreate
  split
  · exact writesAtMost_next_of_slots rfl
  · next a ha =>
    split
    · exact writesAtMost_next_of_slots rfl
    · next hv =>
      split
      · exact writesAtMost_next_of_slots rfl
      · next hn =>
        exact writesAtMost_next_of_set ha
          (.create rep n (Bool.eq_false_iff.mpr hv) (Nat.le_of_not_lt hn)) rfl

/-- An instruction writes at most its target slot, by one of the writes of `Slot.Change` (R44). -/
theorem exec_writesAtMost (i : Instr) (s : State) : WritesAtMost (targetOf i) s (exec i s) := by
  cases i with
  | f2h x => exact writesAtMost_next_of_slots rfl
  | h2f h => exact writesAtMost_next_of_slots rfl
  | qnt t x => exact writesAtMost_withSlot_respond _ _ _ _ _
  | dqn t c => exact writesAtMost_withSlot_respond _ _ _ _ _
  | create t rep n => exact execCreate_writesAtMost t rep n s
  | destroy t =>
    exact writesAtMost_withSlot fun _ hsl hv => writesAtMost_next_of_set hsl (.destroy hv) rfl
  | set t j x =>
    exact writesAtMost_withSlot fun _ hsl hv => writesAtMost_next_of_set hsl (.set j x s.draws hv) rfl
  | get t j => exact writesAtMost_withSlot_respond _ _ _ _ _
  | wscale t v =>
    exact writesAtMost_withSlot fun _ hsl hv => writesAtMost_next_of_set hsl (.wscale v hv) rfl
  | rscale t => exact writesAtMost_withSlot_respond _ _ _ _ fun _ => s.draws
  | wzp t z =>
    exact writesAtMost_withSlot fun _ hsl hv => writesAtMost_next_of_set hsl (.wzp z hv) rfl
  | rzp t => exact writesAtMost_withSlot_respond _ _ _ _ fun _ => s.draws
  | dense tw tx tbias =>
    exact writesAtMost_withSlot fun _ _ _ => writesAtMost_withSlot fun _ _ _ =>
      writesAtMost_withSlot_respond _ _ _ _ _

/-! ### What a step does to the slots and the parameters -/

/-- A step leaves the slots as they are, resets them all, or makes one command's write to one. -/
theorem step_slots {s t : State} (h : step s = .next t) :
    t.slots = s.slots ∨ t.slots = s.slots.map (fun _ => Slot.reset) ∨
    ∃ u a b, s.slots[u]? = some a ∧ a.Change s.maxLen b ∧ t.slots = s.slots.set u b := by
  obtain ⟨-, hr⟩ | ⟨-, ⟨-, -, hr⟩ | ⟨-, -, hr⟩ | ⟨c, n, -, hr⟩ | ⟨c, -, hr⟩ |
    ⟨st, d, -, ⟨-, hr⟩ | ⟨-, hr⟩⟩⟩ := step_cases s
  case inl =>
    cases hr.symm.trans h
    exact .inr (.inl rfl)
  case inr.inr.inr.inr.inl =>
    rw [hr, runCommand] at h
    split at h
    · next i _ =>
      obtain hs | ⟨u, a, b, -, hu, hab, hs⟩ := exec_writesAtMost i s.sampled t h
      · exact .inl hs
      · exact .inr (.inr ⟨u, a, b, hu, hab, hs⟩)
    · cases h
      exact .inl rfl
  all_goals
    cases hr.symm.trans h
    exact .inl rfl

theorem step_numSlots {s t : State} (h : step s = .next t) : t.numSlots = s.numSlots := by
  obtain hs | hs | ⟨u, a, b, -, -, hs⟩ := step_slots h <;> simp [State.numSlots, hs]

theorem step_maxLen {s t : State} (h : step s = .next t) : t.maxLen = s.maxLen := by
  obtain ⟨-, hr⟩ | ⟨-, ⟨-, -, hr⟩ | ⟨-, -, hr⟩ | ⟨c, n, -, hr⟩ | ⟨c, -, hr⟩ |
    ⟨st, d, -, ⟨-, hr⟩ | ⟨-, hr⟩⟩⟩ := step_cases s
  case inr.inr.inr.inr.inl =>
    obtain ⟨slots, k, st, d, -, hc⟩ := runCommand_endsInResponse c s.sampled
    cases (hr.trans hc).symm.trans h
    rfl
  all_goals cases hr.symm.trans h; rfl

/-! ### The invariant -/

theorem Slot.inv_reset (maxLen : Nat) : Slot.reset.Inv maxLen := by
  simp [Slot.Inv, Slot.reset, Memory.wf]

/-- CREATE's zero fill only removes entries, and its length was checked (R144, R204). -/
theorem Slot.inv_created {maxLen n : Nat} {a : Slot} (ha : a.Inv maxLen) (hn : n ≤ maxLen)
    (rep : Rep) : (a.created rep n).Inv maxLen := by
  obtain ⟨hwf, haddr, -⟩ := ha
  refine ⟨wf_zeroFill hwf _ _, fun c hc => haddr c (List.mem_of_mem_filter hc), fun _ => ?_⟩
  exact (Nat.mod_le n (2 ^ 32)).trans hn

/-- SET writes the bytes of an element below the length, so below `MAX_LEN` cells (R142). -/
theorem Slot.inv_setval {maxLen : Nat} {a : Slot} (ha : a.Inv maxLen) (hv : a.valid = true)
    (i : Nat) (x : Word) (k : Nat) : (setval a i x k).1.Inv maxLen := by
  obtain ⟨hwf, haddr, hlen⟩ := ha
  by_cases hi : i < u32 a.length
  · rw [setval_in hi]
    refine ⟨wf_memWrite hwf _ _ _, fun c hc => ?_, hlen⟩
    obtain ⟨-, hlt⟩ | hc := Memory.addr_writeBytes hc
    · have hw := repWidth_le a.rep
      have hl := hlen hv
      unfold cellAddr at hlt
      omega
    · exact haddr c hc
  · rw [setval_out (Nat.le_of_not_lt hi)]
    exact ⟨hwf, haddr, hlen⟩

/-- Every command's write keeps the invariant of its slot. -/
theorem Slot.Change.inv {maxLen : Nat} {a b : Slot} (h : a.Change maxLen b) (ha : a.Inv maxLen) :
    b.Inv maxLen := by
  cases h with
  | create rep n _ hn => exact Slot.inv_created ha hn rep
  | destroy _ => exact ⟨ha.1, ha.2.1, fun hv => absurd hv Bool.false_ne_true⟩
  | set i x k hv => exact Slot.inv_setval ha hv i x k
  | wscale v _ => exact ha
  | wzp z _ => exact ha

theorem step_keeps_slotInv {s t : State} (hs : ∀ sl ∈ s.slots, Slot.Inv s.maxLen sl)
    (h : step s = .next t) : ∀ sl ∈ t.slots, Slot.Inv s.maxLen sl := by
  intro sl hsl
  obtain ht | ht | ⟨u, a, b, ha, hab, ht⟩ := step_slots h <;> rw [ht] at hsl
  · exact hs sl hsl
  · obtain ⟨-, -, rfl⟩ := List.mem_map.mp hsl
    exact Slot.inv_reset _
  · obtain hsl | rfl := List.mem_or_eq_of_mem_set hsl
    · exact hs sl hsl
    · exact hab.inv (hs a (List.mem_of_getElem? ha))

/-! ### The obligations -/

/-- Settles O20: of the slots a step changes contents only, and no step touches the capacity. -/
theorem everyStepKeepsTheParameters : Obligations.EveryStepKeepsTheParameters :=
  fun _ _ h => ⟨step_numSlots h, step_maxLen h⟩

/-- Settles O17: the parameters stay, and reset and every write of a command keep a slot's invariant. -/
theorem everyStepKeepsTheInvariant : Obligations.EveryStepKeepsTheInvariant := by
  rintro s t ⟨hparams, hslots⟩ h
  refine ⟨?_, ?_⟩
  · rwa [State.paramsLegal, step_numSlots h, step_maxLen h]
  · rw [step_maxLen h]
    exact step_keeps_slotInv hslots h

/-- Settles O16: the reference parameters are legal, and every slot is a reset one. -/
theorem invariantHoldsAtReset : Obligations.InvariantHoldsAtReset := by
  refine ⟨by decide, fun sl hsl => ?_⟩
  rw [List.eq_of_mem_replicate hsl]
  exact Slot.inv_reset _

end Sys2Proof.Machine
end

section
/-! SUPPORT. The binary32 operations: where each answers a NaN, the draws it takes, commutation and
identities. -/

namespace Sys2Proof.Machine

/-! ### The classes of a pattern -/

theorem isNaN32_of_isInf32 {x : Word} (h : isInf32 x = true) : isNaN32 x = false := by
  simp_all [isInf32, isNaN32]

theorem isZero32_of_isInf32 {x : Word} (h : isInf32 x = true) : isZero32 x = false := by
  simp_all [isInf32, isZero32]

@[simp] theorem isNaN32_of_finite {x : Word} (h : finite32 x) : isNaN32 x = false := by
  simp [isNaN32, h]

@[simp] theorem isInf32_of_finite {x : Word} (h : finite32 x) : isInf32 x = false := by
  simp [isInf32, h]

/-- A pattern that is no NaN is finite or an infinity. -/
theorem finite32_or_isInf32 {x : Word} (h : isNaN32 x = false) :
    finite32 x ∨ isInf32 x = true := by
  by_cases hb : bexp x = 255
  · exact .inr (by simp_all [isNaN32, isInf32])
  · exact .inl hb

/-- An infinity is its sign and the low bits of an infinity. -/
theorem pack32_infMag_of_isInf32 {x : Word} (h : isInf32 x = true) :
    pack32 (sign32 x) infMag = x := by
  simp only [isInf32, Bool.and_eq_true, beq_iff_eq] at h
  obtain ⟨hb, hf⟩ := h
  have hlow : x.toNat % 2 ^ 31 = infMag := by rw [low31_eq, hb, hf]; rfl
  rw [← hlow, pack32_eta]

/-- A magnitude of no units is one of the two zeros. -/
theorem eq_zero_or_of_magUnits_eq_zero {x : Word} (h : magUnits x = 0) :
    x = 0 ∨ x = 0x80000000 := by
  have hlow : x.toNat % 2 ^ 31 = 0 := by
    rw [low31_eq]
    unfold magUnits at h
    split at h
    · omega
    · exact absurd h (by positivity)
  rw [← pack32_eta x, hlow]
  cases sign32 x
  · exact .inl rfl
  · exact .inr rfl

@[simp] theorem natAbs_units (x : Word) : (units x).natAbs = magUnits x := by
  unfold units
  split <;> simp

theorem units_eq_zero_iff {x : Word} : units x = 0 ↔ magUnits x = 0 := by
  rw [← natAbs_units, Int.natAbs_eq_zero]

theorem units_neg_iff {x : Word} (h : magUnits x ≠ 0) : units x < 0 ↔ sign32 x = true := by
  unfold units
  split
  · next hs => exact iff_of_true (by omega) hs
  · next hs => exact iff_of_false (by omega) hs

/-- A finite pattern's sign with its own magnitude rounded is the pattern. -/
theorem pack32_roundMag_magUnits {x : Word} (hx : bexp x ≠ 255) {den : Nat} (h : 0 < den) :
    pack32 (sign32 x) (roundMag (magUnits x * den) den) = x := by
  rw [roundMag_magUnits hx h, pack32_eta]

/-! ### The operations on finite patterns, and with one infinity -/

theorem addRounded_of_finite {a b : Word} (ha : finite32 a) (hb : finite32 b) :
    addRounded a b =
      if units a + units b = 0 then some (pack32 (sign32 a && sign32 b) 0)
      else some (pack32 (decide (units a + units b < 0))
        (roundMag (units a + units b).natAbs 1)) := by
  simp [addRounded, ha, hb]

theorem mulRounded_of_finite {a b : Word} (ha : finite32 a) (hb : finite32 b) :
    mulRounded a b = some (pack32 (sign32 a != sign32 b)
      (roundMag (magUnits a * magUnits b) (2 ^ 149))) := by
  simp [mulRounded, ha, hb]

theorem divRounded_of_finite {a b : Word} (ha : finite32 a) (hb : finite32 b)
    (hz : isZero32 b = false) :
    divRounded a b = some (pack32 (sign32 a != sign32 b)
      (roundMag (magUnits a * 2 ^ 149) (magUnits b))) := by
  simp [divRounded, ha, hb, hz]

theorem addRounded_inf_right {a b : Word} (ha : finite32 a) (hb : isInf32 b = true) :
    addRounded a b = some b := by
  simp [addRounded, ha, hb, isNaN32_of_isInf32 hb, pack32_infMag_of_isInf32 hb]

theorem mulRounded_inf_right {a b : Word} (ha : finite32 a) (hz : isZero32 a = false)
    (hb : isInf32 b = true) :
    mulRounded a b = some (pack32 (sign32 a != sign32 b) infMag) := by
  simp [mulRounded, ha, hz, hb, isNaN32_of_isInf32 hb, isZero32_of_isInf32 hb]

theorem divRounded_inf_left {a b : Word} (ha : isInf32 a = true) (hb : finite32 b) :
    divRounded a b = some (pack32 (sign32 a != sign32 b) infMag) := by
  simp [divRounded, ha, hb, isNaN32_of_isInf32 ha]

/-! ### Where an operation answers a NaN -/

theorem addRounded_eq_none_iff {a b : Word} :
    addRounded a b = none ↔ isNaN32 a = true ∨ isNaN32 b = true ∨
      (isInf32 a = true ∧ isInf32 b = true ∧ sign32 a ≠ sign32 b) := by
  cases hna : isNaN32 a
  case true => simp [addRounded, hna]
  cases hnb : isNaN32 b
  case true => simp [addRounded, hnb]
  obtain hfa | hia := finite32_or_isInf32 hna
  · obtain hfb | hib := finite32_or_isInf32 hnb
    · rw [addRounded_of_finite hfa hfb]
      split <;> simp [hfa]
    · simp [addRounded_inf_right hfa hib, hfa]
  · simp [addRounded, hna, hnb, hia]

theorem mulRounded_eq_none_iff {a b : Word} :
    mulRounded a b = none ↔ isNaN32 a = true ∨ isNaN32 b = true ∨
      (isInf32 a = true ∧ isZero32 b = true) ∨ (isZero32 a = true ∧ isInf32 b = true) := by
  cases hna : isNaN32 a
  case true => simp [mulRounded, hna]
  cases hnb : isNaN32 b
  case true => simp [mulRounded, hnb]
  cases hia : isInf32 a
  · cases hib : isInf32 b
    · simp [mulRounded, hna, hnb, hia, hib]
    · simp [mulRounded, hna, hnb, hia, hib, isZero32_of_isInf32 hib]
  · simp [mulRounded, hna, hnb, hia, isZero32_of_isInf32 hia]

theorem divRounded_eq_none_iff {a b : Word} :
    divRounded a b = none ↔ isNaN32 a = true ∨ isNaN32 b = true ∨
      (isInf32 a = true ∧ isInf32 b = true) ∨ (isZero32 a = true ∧ isZero32 b = true) := by
  cases hna : isNaN32 a
  case true => simp [divRounded, hna]
  cases hnb : isNaN32 b
  case true => simp [divRounded, hnb]
  cases hia : isInf32 a
  · cases hib : isInf32 b
    · cases hzb : isZero32 b <;> simp [divRounded, hna, hnb, hia, hib, hzb]
    · simp [divRounded, hna, hnb, hia, hib, isZero32_of_isInf32 hib]
  · simp [divRounded, hna, hnb, hia, isZero32_of_isInf32 hia]

/-! ### NaN results and draws -/

theorem isNaN32_pack32_infMag (sgn : Bool) : isNaN32 (pack32 sgn infMag) = false :=
  isNaN32_of_isInf32 (isInf32_pack32_infMag sgn)

theorem isNaN32_pack32_zero (sgn : Bool) : isNaN32 (pack32 sgn 0) = false := by
  cases sgn <;> rfl

theorem isNaN32_of_addRounded {a b w : Word} (h : addRounded a b = some w) : isNaN32 w = false := by
  unfold addRounded at h
  dsimp only at h
  split_ifs at h <;> simp only [Option.some.injEq] at h
  · exact h ▸ isNaN32_pack32_infMag _
  · exact h ▸ isNaN32_pack32_infMag _
  · exact h ▸ isNaN32_pack32_zero _
  · exact h ▸ isNaN32_pack32_roundMag _ _ _

theorem isNaN32_of_mulRounded {a b w : Word} (h : mulRounded a b = some w) : isNaN32 w = false := by
  unfold mulRounded at h
  dsimp only at h
  split_ifs at h <;> simp only [Option.some.injEq] at h
  · exact h ▸ isNaN32_pack32_infMag _
  · exact h ▸ isNaN32_pack32_roundMag _ _ _

theorem isNaN32_of_divRounded {a b w : Word} (h : divRounded a b = some w) : isNaN32 w = false := by
  unfold divRounded at h
  dsimp only at h
  split_ifs at h <;> simp only [Option.some.injEq] at h
  · exact h ▸ isNaN32_pack32_infMag _
  · exact h ▸ isNaN32_pack32_zero _
  · exact h ▸ isNaN32_pack32_infMag _
  · exact h ▸ isNaN32_pack32_roundMag _ _ _

/-- Where no exact result is a NaN pattern, a settled one is a NaN exactly where there was none. -/
theorem isNaN32_settleNan_iff {r : Option Word} (hr : ∀ w, r = some w → isNaN32 w = false)
    (k : Nat) : isNaN32 (settleNan r k).1 = true ↔ r = none := by
  cases r with
  | none => simp
  | some w => simp [hr w rfl]

theorem settleNan_draws (r : Option Word) (k : Nat) :
    (settleNan r k).2 = if r = none then k + 1 else k := by
  cases r <;> simp

/-! ### Commutation and identities -/

theorem addRounded_comm (a b : Word) : addRounded a b = addRounded b a := by
  simp only [addRounded, Bool.or_comm (isNaN32 a), Int.add_comm (units a), Bool.and_comm (sign32 a),
    bne_comm (a := sign32 a)]
  -- two infinities answer one of the same sign, or a NaN in both orders
  by_cases hs : sign32 b = sign32 a <;> cases isInf32 a <;> cases isInf32 b <;> simp [hs]

theorem mulRounded_comm (a b : Word) : mulRounded a b = mulRounded b a := by
  simp only [mulRounded, Bool.or_comm (isNaN32 a), Bool.or_comm (isInf32 a),
    Bool.or_comm (isZero32 a), bne_comm (a := sign32 a), Nat.mul_comm (magUnits a)]

/-- `+0.0` is the identity of addition, but for −0.0, which it turns into +0.0 (R175). -/
theorem addRounded_zero_left {a : Word} (ha : isNaN32 a = false) :
    addRounded 0 a = some (if a = 0x80000000 then 0 else a) := by
  have h0 : finite32 0 := by decide
  obtain hfin | hinf := finite32_or_isInf32 ha
  · rw [addRounded_of_finite h0 hfin, show units 0 = 0 from rfl, zero_add]
    by_cases hu : units a = 0
    · obtain rfl | rfl := eq_zero_or_of_magUnits_eq_zero (units_eq_zero_iff.mp hu) <;> rfl
    · have hm : magUnits a ≠ 0 := fun h => hu (units_eq_zero_iff.mpr h)
      have hne : a ≠ 0x80000000 := by rintro rfl; exact hu rfl
      have hsign : sign32 a = decide (units a < 0) := by simp [units_neg_iff hm]
      have hround := pack32_roundMag_magUnits hfin Nat.one_pos
      rw [Nat.mul_one] at hround
      rw [if_neg hu, if_neg hne, natAbs_units, ← hsign, hround]
  · have hne : a ≠ 0x80000000 := by rintro rfl; exact absurd hinf (by decide)
    rw [addRounded_inf_right h0 hinf, if_neg hne]

theorem magUnits_one : magUnits 0x3F800000 = 2 ^ 149 := by decide

theorem mulRounded_one_left {a : Word} (ha : isNaN32 a = false) :
    mulRounded 0x3F800000 a = some a := by
  have h1 : finite32 0x3F800000 := by decide
  have hs : sign32 0x3F800000 = false := rfl
  obtain hfin | hinf := finite32_or_isInf32 ha
  · rw [mulRounded_of_finite h1 hfin, magUnits_one, hs, Bool.false_bne, Nat.mul_comm,
      pack32_roundMag_magUnits hfin (by positivity)]
  · rw [mulRounded_inf_right h1 rfl hinf, hs, Bool.false_bne, pack32_infMag_of_isInf32 hinf]

theorem divRounded_one_right {a : Word} (ha : isNaN32 a = false) :
    divRounded a 0x3F800000 = some a := by
  have h1 : finite32 0x3F800000 := by decide
  have hs : sign32 0x3F800000 = false := rfl
  obtain hfin | hinf := finite32_or_isInf32 ha
  · rw [divRounded_of_finite hfin h1 rfl, magUnits_one, hs, Bool.bne_false,
      pack32_roundMag_magUnits hfin (by positivity)]
  · rw [divRounded_inf_left hinf h1, hs, Bool.bne_false, pack32_infMag_of_isInf32 hinf]

/-! ### The obligations -/

/-- Settles O32: no rounded result is a NaN pattern and every draw is one, so a NaN marks a draw; which
operands leave no rounded result is read off the branches of each operation. -/
theorem nanResultsAreExactlyTheDraws : Obligations.NanResultsAreExactlyTheDraws :=
  fun _ _ k =>
    ⟨isNaN32_settleNan_iff (fun _ => isNaN32_of_addRounded) k,
      isNaN32_settleNan_iff (fun _ => isNaN32_of_mulRounded) k,
      isNaN32_settleNan_iff (fun _ => isNaN32_of_divRounded) k,
      addRounded_eq_none_iff, mulRounded_eq_none_iff, divRounded_eq_none_iff,
      settleNan_draws _ k, settleNan_draws _ k, settleNan_draws _ k⟩

/-- Settles O34: the exact sum and product commute, and a value that is no NaN is its own rounding. -/
theorem arithmeticCommutesWithIdentities : Obligations.ArithmeticCommutesWithIdentities :=
  fun a b => ⟨addRounded_comm a b, mulRounded_comm a b, fun ha =>
    ⟨addRounded_zero_left ha, mulRounded_one_left ha, divRounded_one_right ha⟩⟩

end Sys2Proof.Machine
end

section
/-! SUPPORT. The magnitudes that binary32 holds, as a strictly rising sequence over the low bits of a
pattern, continued past the greatest finite one; and where `roundMag` lands in it. -/

namespace Sys2Proof.Machine

/-! ### The sequence of magnitudes -/

/-- The magnitude, in units of 2^−149, of the low bits `mag`, read as R12 reads a finite pattern. Past
the greatest finite pattern the exponent field goes on rising. -/
def gridMag (mag : Nat) : Nat :=
  if mag / 2 ^ 23 = 0 then mag % 2 ^ 23 else (2 ^ 23 + mag % 2 ^ 23) * 2 ^ (mag / 2 ^ 23 - 1)

theorem magUnits_pack32_eq_gridMag (sgn : Bool) {mag : Nat} (h : mag < 2 ^ 31) :
    magUnits (pack32 sgn mag) = gridMag mag := magUnits_pack32 sgn h

theorem magOf_eq_gridMag {mag : Nat} (h : mag < infMag) : magOf mag = gridMag mag :=
  magUnits_pack32_eq_gridMag false (h.trans infMag_lt)

theorem finite32_pack32 (sgn : Bool) {mag : Nat} (h : mag < infMag) :
    finite32 (pack32 sgn mag) := by
  rw [finite32, bexp_pack32 _ (h.trans infMag_lt)]
  unfold infMag at h
  omega

/-- The low bits that `roundMag` puts together hold a count `q` of fraction steps of worth `2 ^ shift`:
a subnormal count where `shift` is 0, and the carry into the exponent field where `q` is `2 ^ 24`. -/
theorem gridMag_of_shift {shift q : Nat} (hq : q ≤ 2 ^ 24) (h : shift = 0 ∨ 2 ^ 23 ≤ q) :
    gridMag (shift * 2 ^ 23 + q) = q * 2 ^ shift := by
  unfold gridMag
  by_cases hsub : q < 2 ^ 23
  · obtain rfl : shift = 0 := by omega
    rw [if_pos (by omega), Nat.pow_zero]
    omega
  · rw [if_neg (by omega)]
    by_cases hcarry : q = 2 ^ 24
    · rw [show (shift * 2 ^ 23 + q) / 2 ^ 23 - 1 = shift + 1 by omega,
        show 2 ^ 23 + (shift * 2 ^ 23 + q) % 2 ^ 23 = 2 ^ 23 by omega, hcarry]
      ring
    · rw [show (shift * 2 ^ 23 + q) / 2 ^ 23 - 1 = shift by omega,
        show 2 ^ 23 + (shift * 2 ^ 23 + q) % 2 ^ 23 = q by omega]

/-- Every low bits are a count of fraction steps that has room for one more. -/
theorem exists_shift_eq (mag : Nat) :
    ∃ shift q, mag = shift * 2 ^ 23 + q ∧ q < 2 ^ 24 ∧ (shift = 0 ∨ 2 ^ 23 ≤ q) :=
  ⟨mag / 2 ^ 23 - 1, mag - (mag / 2 ^ 23 - 1) * 2 ^ 23, by omega, by omega, by omega⟩

theorem gridMag_strictMono : StrictMono gridMag := by
  refine strictMono_nat_of_lt_succ fun mag => ?_
  obtain ⟨shift, q, rfl, hq, h⟩ := exists_shift_eq mag
  rw [Nat.add_assoc, gridMag_of_shift hq.le h, gridMag_of_shift hq (by omega)]
  exact Nat.mul_lt_mul_of_pos_right (Nat.lt_succ_self q) (by positivity)

/-! ### Rounding to the nearest member -/

/-- The lower of two neighbours is taken: `num / den` is below their middle, or on it with the lower one
even. -/
def takesLower (num den lo : Nat) : Prop :=
  2 * num < (gridMag lo + gridMag (lo + 1)) * den ∨
    (2 * num = (gridMag lo + gridMag (lo + 1)) * den ∧ lo % 2 = 0)

/-- The quotient's whole part counts fewer than `2 ^ 24` steps of the shift that `roundMag` takes, and
at least `2 ^ 23` but for the subnormals. -/
theorem count_bounds (num den : Nat) :
    num / (den * 2 ^ ((num / den).log2 - 23)) < 2 ^ 24 ∧
    ((num / den).log2 - 23 = 0 ∨ 2 ^ 23 ≤ num / (den * 2 ^ ((num / den).log2 - 23))) := by
  rw [← Nat.div_div_eq_div_mul]
  generalize num / den = q
  have hpos : 0 < 2 ^ (q.log2 - 23) := by positivity
  by_cases hs : q.log2 - 23 = 0
  · refine ⟨?_, .inl hs⟩
    rw [hs, Nat.pow_zero, Nat.div_one]
    exact Nat.lt_log2_self.trans_le (Nat.pow_le_pow_right (by decide) (by omega))
  · have hlog : q.log2 = 23 + (q.log2 - 23) := by omega
    have hq : q ≠ 0 := by rintro rfl; exact hs rfl
    refine ⟨?_, .inr ?_⟩
    · rw [Nat.div_lt_iff_lt_mul hpos, ← Nat.pow_add]
      exact Nat.lt_log2_self.trans_le (Nat.pow_le_pow_right (by decide) (by omega))
    · rw [Nat.le_div_iff_mul_le hpos, ← Nat.pow_add, ← hlog]
      exact Nat.log2_self_le hq

/-- Rounding finds the neighbours around `num / den` and takes the nearer, the even one in the middle. -/
theorem roundMag_between (num : Nat) {den : Nat} (hd : 0 < den) :
    ∃ lo, gridMag lo * den ≤ num ∧ num < gridMag (lo + 1) * den ∧
      (takesLower num den lo → roundMag num den = min infMag lo) ∧
      (¬takesLower num den lo → roundMag num den = min infMag (lo + 1)) := by
  obtain ⟨hlt, hge⟩ := count_bounds num den
  unfold roundMag roundDiv
  dsimp only
  generalize (num / den).log2 - 23 = shift at hlt hge ⊢
  have hstep : 0 < den * 2 ^ shift := by positivity
  have hdiv := Nat.div_add_mod num (den * 2 ^ shift)
  have hmod := Nat.mod_lt num hstep
  generalize num / (den * 2 ^ shift) = q at hlt hge hdiv ⊢
  generalize num % (den * 2 ^ shift) = r at hdiv hmod ⊢
  have hlo : gridMag (shift * 2 ^ 23 + q) * den = den * 2 ^ shift * q := by
    rw [gridMag_of_shift hlt.le hge]; ring
  have hhi : gridMag (shift * 2 ^ 23 + q + 1) * den = den * 2 ^ shift * q + den * 2 ^ shift := by
    rw [Nat.add_assoc, gridMag_of_shift (q := q + 1) hlt (by omega)]; ring
  have hmid : takesLower num den (shift * 2 ^ 23 + q) ↔
      2 * r < den * 2 ^ shift ∨ (2 * r = den * 2 ^ shift ∧ q % 2 = 0) := by
    rw [takesLower, Nat.add_mul, hlo, hhi]
    omega
  refine ⟨shift * 2 ^ 23 + q, by omega, by omega, fun h => ?_, fun h => ?_⟩
  · rw [if_pos (hmid.mp h)]
  · rw [if_neg (mt hmid.mpr h), Nat.add_assoc]

/-! ### The greatest finite member and overflow -/

theorem gridMag_infMag_pred : gridMag (infMag - 1) = (2 ^ 24 - 1) * 2 ^ 253 :=
  gridMag_of_shift (shift := 253) (q := 2 ^ 24 - 1) (by decide) (.inr (by decide))

theorem gridMag_infMag : gridMag infMag = 2 ^ 24 * 2 ^ 253 :=
  gridMag_of_shift (shift := 253) (q := 2 ^ 24) le_rfl (.inr (by decide))

/-- The overflow threshold is the middle between the greatest finite member and the next. -/
theorem two_mul_overflowUnits :
    2 * overflowUnits = gridMag (infMag - 1) + gridMag infMag := by
  rw [gridMag_infMag_pred, gridMag_infMag, overflowUnits]
  norm_num

/-- At the greatest finite member, which is odd, the upper neighbour is taken from the middle on. -/
theorem takesLower_infMag_pred_iff (num den : Nat) :
    takesLower num den (infMag - 1) ↔ num < overflowUnits * den := by
  have hodd : (infMag - 1) % 2 = 1 := rfl
  rw [takesLower, show infMag - 1 + 1 = infMag from rfl, ← two_mul_overflowUnits, Nat.mul_assoc, hodd]
  omega

theorem roundMag_eq_infMag_iff (num : Nat) {den : Nat} (hd : 0 < den) :
    roundMag num den = infMag ↔ overflowUnits * den ≤ num := by
  obtain ⟨lo, hlo, hhi, hdown, hup⟩ := roundMag_between num hd
  have hmid := two_mul_overflowUnits
  have hstep : gridMag (infMag - 1) < gridMag infMag := gridMag_strictMono (by decide)
  obtain hlt | rfl | hgt : lo + 1 < infMag ∨ lo = infMag - 1 ∨ infMag ≤ lo := by omega
  · -- both neighbours are finite
    have hgrid : gridMag (lo + 1) ≤ gridMag (infMag - 1) :=
      gridMag_strictMono.monotone (by omega)
    have hle : gridMag (lo + 1) * den ≤ overflowUnits * den :=
      Nat.mul_le_mul_right _ (by omega)
    have hne : roundMag num den ≠ infMag := by
      by_cases ht : takesLower num den lo
      · rw [hdown ht]; omega
      · rw [hup ht]; omega
    exact iff_of_false hne (by omega)
  · -- the upper neighbour is infinity
    rw [takesLower_infMag_pred_iff] at hdown hup
    by_cases ht : num < overflowUnits * den
    · exact iff_of_false (by rw [hdown ht]; decide) (by omega)
    · exact iff_of_true (by rw [hup ht]; decide) (by omega)
  · -- both neighbours are at or past infinity
    have hgrid : gridMag infMag ≤ gridMag lo := gridMag_strictMono.monotone hgt
    have hle : overflowUnits * den ≤ gridMag lo * den := Nat.mul_le_mul_right _ (by omega)
    have heq : roundMag num den = infMag := by
      by_cases ht : takesLower num den lo
      · rw [hdown ht]; omega
      · rw [hup ht]; omega
    exact iff_of_true heq (by omega)

/-! ### A finite result is a nearest member -/

/-- No member is nearer to `num / den` than a finite result, and the result is even where another one is
as near: every other member is at or beyond one of the two neighbours. -/
theorem roundMag_nearest {num den : Nat} (hd : 0 < den) (hfin : roundMag num den < infMag)
    (m : Nat) :
    ((gridMag (roundMag num den) * den : Nat) - num : Int).natAbs ≤
      ((gridMag m * den : Nat) - num : Int).natAbs ∧
    (m ≠ roundMag num den →
      ((gridMag (roundMag num den) * den : Nat) - num : Int).natAbs =
        ((gridMag m * den : Nat) - num : Int).natAbs →
      roundMag num den % 2 = 0) := by
  obtain ⟨lo, hlo, hhi, hdown, hup⟩ := roundMag_between num hd
  have hmono : StrictMono fun k => gridMag k * den :=
    fun a b hab => Nat.mul_lt_mul_of_pos_right (gridMag_strictMono hab) hd
  have hm : (m < lo ∧ gridMag m * den < gridMag lo * den) ∨ m = lo ∨ m = lo + 1 ∨
      (lo + 1 < m ∧ gridMag (lo + 1) * den < gridMag m * den) := by
    obtain h | h | h | h : m < lo ∨ m = lo ∨ m = lo + 1 ∨ lo + 1 < m := by omega
    · exact .inl ⟨h, hmono h⟩
    · exact .inr (.inl h)
    · exact .inr (.inr (.inl h))
    · exact .inr (.inr (.inr ⟨h, hmono h⟩))
  by_cases ht : takesLower num den lo
  · have hr : roundMag num den = lo := by have := hdown ht; omega
    rw [takesLower, Nat.add_mul] at ht
    rw [hr]
    obtain ⟨hlt, h⟩ | rfl | rfl | ⟨hlt, h⟩ := hm <;> omega
  · have hr : roundMag num den = lo + 1 := by have := hup ht; omega
    rw [takesLower, Nat.add_mul] at ht
    rw [hr]
    obtain ⟨hlt, h⟩ | rfl | rfl | ⟨hlt, h⟩ := hm <;> omega

/-! ### Exact results -/

/-- A member below the overflow rounds to itself. -/
theorem roundMag_gridMag {mag : Nat} (h : mag < infMag) {den : Nat} (hd : 0 < den) :
    roundMag (gridMag mag * den) den = mag := by
  have hlt : mag < 2 ^ 31 := h.trans infMag_lt
  have hr := roundMag_magUnits (finite32_pack32 false h) hd
  rwa [magUnits_pack32_eq_gridMag _ hlt, pack32_toNat _ hlt, if_neg (by decide), Nat.zero_add,
    Nat.mod_eq_of_lt hlt] at hr

/-- Every integer up to `2 ^ 24` is a member: its leading one is moved to the top of the fraction, and
`2 ^ 24` itself is a carry from the exponent below. -/
theorem exists_gridMag_of_le {n : Nat} (h : n ≤ 2 ^ 24) :
    ∃ mag < infMag, gridMag mag = n * 2 ^ 149 := by
  obtain rfl | hpos := Nat.eq_zero_or_pos n
  · exact ⟨0, by decide, by decide⟩
  obtain ⟨l, hl, hlow, hhigh⟩ : ∃ l ≤ 23, 2 ^ l ≤ n ∧ n ≤ 2 ^ (l + 1) := by
    obtain rfl | hlt := h.eq_or_lt
    · exact ⟨23, le_rfl, by decide, le_rfl⟩
    · have hlog := (Nat.log2_lt hpos.ne').mpr hlt
      exact ⟨n.log2, by omega, Nat.log2_self_le hpos.ne', Nat.lt_log2_self.le⟩
  have hge : 2 ^ 23 ≤ n * 2 ^ (23 - l) := by
    calc 2 ^ 23 = 2 ^ l * 2 ^ (23 - l) := by rw [← Nat.pow_add]; congr 1; omega
      _ ≤ n * 2 ^ (23 - l) := Nat.mul_le_mul_right _ hlow
  have hle : n * 2 ^ (23 - l) ≤ 2 ^ 24 := by
    calc n * 2 ^ (23 - l) ≤ 2 ^ (l + 1) * 2 ^ (23 - l) := Nat.mul_le_mul_right _ hhigh
      _ = 2 ^ 24 := by rw [← Nat.pow_add]; congr 1; omega
  refine ⟨(126 + l) * 2 ^ 23 + n * 2 ^ (23 - l), by unfold infMag; omega, ?_⟩
  rw [gridMag_of_shift hle (.inr hge), Nat.mul_assoc, ← Nat.pow_add]
  congr 2
  omega

theorem i2f32_of_gridMag {n : Int} {mag : Nat} (h : mag < infMag)
    (hn : gridMag mag = n.natAbs * 2 ^ 149) : i2f32 n = pack32 (decide (n < 0)) mag := by
  have hr := roundMag_gridMag h Nat.one_pos
  rw [Nat.mul_one] at hr
  rw [i2f32, ← hn, hr]

/-! ### The obligations -/

/-- Settles O31: rounding takes the nearer of the two neighbours in the rising sequence of magnitudes. -/
theorem roundingIsToNearestEven : Obligations.RoundingIsToNearestEven := by
  intro num den hd
  refine ⟨roundMag_eq_infMag_iff num hd, fun hfin m hm => ?_⟩
  have hnear := roundMag_nearest hd hfin m
  push_cast at hnear
  rwa [magOf_eq_gridMag hfin, magOf_eq_gridMag hm]

/-- Settles O33: such an integer is a member of the sequence, so its rounding is exact. -/
theorem smallIntegersConvertExactly : Obligations.SmallIntegersConvertExactly := by
  intro n hn
  obtain ⟨mag, hmag, hgrid⟩ := exists_gridMag_of_le hn
  have hlt : mag < 2 ^ 31 := hmag.trans infMag_lt
  rw [i2f32_of_gridMag hmag hgrid]
  have hsign := sign32_pack32 (decide (n < 0)) hlt
  have hmagUnits : magUnits (pack32 (decide (n < 0)) mag) = n.natAbs * 2 ^ 149 := by
    rw [magUnits_pack32_eq_gridMag _ hlt, hgrid]
  refine ⟨finite32_pack32 _ hmag, ?_, hsign, ?_⟩
  · rw [units, hsign, hmagUnits]
    simp only [decide_eq_true_eq]
    split <;> omega
  · rw [trunc32, hsign, hmagUnits, Nat.mul_div_cancel _ (by positivity)]
    simp only [decide_eq_true_eq]
    split <;> omega

end Sys2Proof.Machine
end

section
/-! SUPPORT. What an instruction leaves unchanged, what the life of a tensor keeps, and what the commands
that create a tensor and write its parameters leave in its slot. -/

namespace Sys2Proof.Machine

/-! ### Reading an element -/

/-- The value that an element with pattern `p` stands for, in a slot with the given representation,
scale and zero-point (R141). -/
def decodedPattern (rep : Rep) (scale zp : Word) (p k : Nat) : Word × Nat :=
  match rep with
  | .f32 => (BitVec.ofNat 32 p, k)
  | .f16 => (dec16 (BitVec.ofNat 16 p), k)
  | .i8 => dequant (s32 (sext8 (BitVec.ofNat 8 p))) scale (s32 zp) k

/-- A read in range decodes the pattern held at the slot's width (R141). -/
theorem getval_in {sl : Slot} {i : Nat} (h : i < u32 sl.length) (k : Nat) :
    getval sl i k =
      decodedPattern sl.rep sl.scale sl.zp (memRead sl.stor i (repWidth sl.rep)) k := by
  unfold getval decodedPattern
  rw [if_neg (Nat.not_le.mpr h)]
  cases sl.rep <;> rfl

/-! ### The life of a tensor -/

theorem setval_rep (a : Slot) (i : Nat) (x : Word) (k : Nat) :
    (setval a i x k).1.rep = a.rep := by
  unfold setval
  split <;> rfl

theorem setval_length (a : Slot) (i : Nat) (x : Word) (k : Nat) :
    (setval a i x k).1.length = a.length := by
  unfold setval
  split <;> rfl

/-- A command's write that leaves a tensor in place changes neither its representation nor its length:
CREATE wants an unallocated slot, and DESTROY leaves one (R23). -/
theorem Slot.Change.rep_length {maxLen : Nat} {a b : Slot} (h : a.Change maxLen b)
    (ha : a.valid = true) (hb : b.valid = true) : a.rep = b.rep ∧ a.length = b.length := by
  cases h with
  | create rep n hv _ => exact absurd (hv.symm.trans ha) Bool.false_ne_true
  | destroy _ => exact absurd hb Bool.false_ne_true
  | set i x k _ => exact ⟨(setval_rep a i x k).symm, (setval_length a i x k).symm⟩
  | wscale v _ => exact ⟨rfl, rfl⟩
  | wzp z _ => exact ⟨rfl, rfl⟩

/-- Settles O21: a step writes to one slot at most, by a write that keeps a living tensor's
representation and length. -/
theorem repAndLengthFixedForLife : Obligations.RepAndLengthFixedForLife := by
  intro s t u a b h ha hb hva hvb
  obtain ht | ht | ⟨w, c, d, hw, hcd, ht⟩ := step_slots h <;> rw [ht] at hb
  · cases ha.symm.trans hb
    exact ⟨rfl, rfl⟩
  · obtain ⟨-, -, rfl⟩ := List.mem_map.mp (List.mem_of_getElem? hb)
    exact absurd hvb Bool.false_ne_true
  · by_cases hwu : w = u
    · subst hwu
      cases hw.symm.trans ha
      rw [List.getElem?_set_self (List.getElem?_eq_some_iff.mp ha).1] at hb
      cases hb
      exact hcd.rep_length hva hvb
    · rw [List.getElem?_set_ne hwu] at hb
      cases ha.symm.trans hb
      exact ⟨rfl, rfl⟩

/-! ### The frame of an instruction -/

/-- Settles O23: a result changes the slots, the draws and the engine only, and the slots by one write
to the target. -/
theorem onlyTheTargetSlotChanges : Obligations.OnlyTheTargetSlotChanges := by
  intro i s t h
  have hwrites := exec_writesAtMost i s t h
  obtain ⟨slots, k, st, d, hlen, hr⟩ := exec_endsInResponse i s
  cases hr.symm.trans h
  refine ⟨fun u hu => ?_, hlen, rfl, rfl, rfl, fun hnone => ?_⟩
  · obtain hs | ⟨w, a, b, hw, -, -, hs⟩ := hwrites
    · rw [hs]
    · have hwu : w ≠ u := fun e => hu (e ▸ hw)
      rw [hs, List.getElem?_set_ne hwu]
  · obtain hs | ⟨w, a, b, hw, -⟩ := hwrites
    · exact hs
    · cases hnone.symm.trans hw

/-! ### CREATE -/

theorem execCreate_of_unallocated {s : State} {t n : Nat} {sl : Slot} (rep : Rep)
    (hsl : s.slots[t]? = some sl) (hv : sl.valid = false) (hn : n ≤ s.maxLen) :
    exec (.create t rep n) s =
      .next ((s.setSlot t (sl.created rep n)).setEngine (.resp .ok 0)) := by
  simp [exec, execCreate, hsl, hv, Nat.not_lt.mpr hn]

theorem memRead_created (sl : Slot) (rep : Rep) {n i : Nat} (hi : i < n) :
    memRead (sl.created rep n).stor i (repWidth rep) = 0 :=
  memRead_zeroFill sl.stor hi (repWidth_le rep)

/-- The code 0 against the scale 1.0 and the zero-point 0 is +0.0, with no draw (R123). -/
theorem dequant_zero_one_zero (k : Nat) : dequant 0 0x3F800000 0 k = (0, k) := by
  have hzero : i2f32 (0 - 0) = 0 := by simp [i2f32, roundMag_zero, pack32]
  rw [dequant, hzero, fmul32, mulRounded_comm, mulRounded_one_left rfl, settleNan_some]

/-- The all-zero pattern decodes to +0.0 in every representation, with a scale of 1.0 and a zero-point
of 0 (R32). -/
theorem decodedPattern_zero (rep : Rep) (k : Nat) :
    decodedPattern rep 0x3F800000 0 0 k = (0, k) := by
  cases rep with
  | f32 => rfl
  | f16 => rfl
  | i8 => exact dequant_zero_one_zero k

/-- Every index of a created tensor reads as +0.0, within its length or not (R32, R141). -/
theorem getval_created (sl : Slot) (rep : Rep) (n i k : Nat) :
    getval (sl.created rep n) i k = (0, k) := by
  by_cases hi : i < u32 (sl.created rep n).length
  · have hread := memRead_created sl rep (hi.trans_le (Nat.mod_le n (2 ^ 32)))
    rw [getval_in hi]
    change decodedPattern rep 0x3F800000 0
      (memRead (sl.created rep n).stor i (repWidth rep)) k = (0, k)
    rw [hread, decodedPattern_zero]
  · exact getval_out (Nat.le_of_not_lt hi) k

/-- Settles O42: the slot left is `Slot.created`, whose zero fill touches the bytes of the elements
only. -/
theorem createMakesAZeroTensor : Obligations.CreateMakesAZeroTensor := by
  intro s t rep n sl hsl hv hn hn32
  refine ⟨sl.created rep n, execCreate_of_unallocated rep hsl hv hn, rfl, rfl,
    Nat.mod_eq_of_lt hn32, rfl, rfl, fun i => memRead_created sl rep, getval_created sl rep n,
    fun a ha => ?_⟩
  change (zeroFill sl.stor n (repWidth rep)).readByte a = _
  rw [readByte_zeroFill, ha, if_neg Bool.false_ne_true]

/-! ### The parameters of a tensor -/

theorem exec_rscale {s : State} {t : Nat} {sl : Slot} (h : s.allocated t = some sl) :
    exec (.rscale t) s = .next (s.setEngine (.resp .ok sl.scale)) := withSlot_allocated h

theorem exec_rzp {s : State} {t : Nat} {sl : Slot} (h : s.allocated t = some sl) :
    exec (.rzp t) s = .next (s.setEngine (.resp .ok sl.zp)) := withSlot_allocated h

theorem exec_wscale {s : State} {t : Nat} {sl : Slot} (v : Word) (h : s.allocated t = some sl) :
    exec (.wscale t v) s =
      .next ((s.setSlot t { sl with scale := v }).setEngine (.resp .ok 0)) := withSlot_allocated h

theorem exec_wzp {s : State} {t : Nat} {sl : Slot} (z : Int) (h : s.allocated t = some sl) :
    exec (.wzp t z) s =
      .next ((s.setSlot t { sl with zp := BitVec.ofInt 32 z }).setEngine (.resp .ok 0)) :=
  withSlot_allocated h

/-- A tensor put in the place of an allocated one is found there after the response. -/
theorem allocated_after_setSlot {s : State} {t : Nat} {sl : Slot} (h : s.allocated t = some sl)
    (new : Slot) (hv : new.valid = sl.valid) (e : Engine) :
    ((s.setSlot t new).setEngine e).allocated t = some new :=
  State.allocated_setSlot_same (State.lt_of_allocated h)
    (hv.trans (State.allocated_eq_some.mp h).2)

/-- A zero-point in R71's range is what its 32-bit pattern stands for. -/
theorem s32_ofInt {z : Int} (h : zeroPointOk z = true) : s32 (BitVec.ofInt 32 z) = z := by
  obtain ⟨hlo, hhi⟩ := of_decide_eq_true h
  rw [s32, BitVec.toInt_ofInt]
  exact Int.bmod_eq_of_le (by omega) (by omega)

/-- Settles O49: RSCALE reads the `scale` of the slot that WSCALE left. -/
theorem scaleReadsBackAsWritten : Obligations.ScaleReadsBackAsWritten :=
  fun _ _ v sl h => ⟨exec_rscale h, _, exec_wscale v h, rfl,
    exec_rscale (allocated_after_setSlot h { sl with scale := v } rfl _)⟩

/-- Settles O50: RZP reads the `zp` of the slot that WZP left. -/
theorem zeroPointReadsBackAsWritten : Obligations.ZeroPointReadsBackAsWritten :=
  fun _ _ z sl h hz => ⟨exec_rzp h, _, BitVec.ofInt 32 z, s32_ofInt hz, exec_wzp z h, rfl,
    exec_rzp (allocated_after_setSlot h { sl with zp := BitVec.ofInt 32 z } rfl _)⟩

/-! ### The reset state -/

/-- Settles O13: every slot of the reset state is `Slot.reset`. -/
theorem resetStateIsIdleAndUnallocated : Obligations.ResetStateIsIdleAndUnallocated := by
  refine fun n m => ⟨rfl, rfl, rfl, List.length_replicate, rfl, fun sl hsl => ?_⟩
  rw [List.eq_of_mem_replicate hsl]
  rfl

end Sys2Proof.Machine
end

section
/-! SUPPORT. The patterns that the half-float encoder produces, and that the elements of valid F16 slots
are such patterns or zero (R27, R102): at reset and over every step. -/

namespace Sys2Proof.Machine

/-! ### What the encoder produces -/

/-- The sign bit of a half pattern in its place, all else zero (R101). -/
def halfSign (sgn : Bool) : Half := if sgn then 0x8000 else 0

theorem enc16_of_underflow {x : Word} (h : bexp x ≤ 112) :
    enc16 x = halfSign (sign32 x) := by
  have hne : (bexp x : Int) - 127 + 15 ≤ 0 := by omega
  simp only [enc16, if_pos hne, halfSign]

theorem enc16_of_overflow {x : Word} (h : 143 ≤ bexp x) :
    enc16 x = halfSign (sign32 x) ||| 0x7C00 := by
  have hpos : ¬ (bexp x : Int) - 127 + 15 ≤ 0 := by omega
  have hge : (bexp x : Int) - 127 + 15 ≥ 31 := by omega
  simp only [enc16, if_neg hpos, if_pos hge, halfSign]

theorem enc16_of_normal {x : Word} (hlo : 113 ≤ bexp x) (hhi : bexp x ≤ 142) :
    enc16 x = halfSign (sign32 x) ||| (BitVec.ofNat 16 (bexp x - 112) <<< 10) |||
      (x.extractLsb' 13 10).zeroExtend 16 := by
  have hpos : ¬ (bexp x : Int) - 127 + 15 ≤ 0 := by omega
  have hlt : ¬ (bexp x : Int) - 127 + 15 ≥ 31 := by omega
  have hne : (bexp x : Int) - 127 + 15 = ((bexp x - 112 : Nat) : Int) := by omega
  simp only [enc16, if_neg hpos, if_neg hlt, halfSign]
  rw [hne, BitVec.ofInt_natCast]

/-- The exponent field of a sign, an exponent and a mantissa put together. -/
theorem half_exponent (sgn : Bool) (e : Nat) (m : BitVec 10) :
    (halfSign sgn ||| (BitVec.ofNat 16 e <<< 10) ||| m.zeroExtend 16).extractLsb' 10 5 =
      BitVec.ofNat 5 e := by
  have hsgn : (halfSign sgn).extractLsb' 10 5 = 0 := by cases sgn <;> rfl
  have hm : (m.zeroExtend 16).extractLsb' 10 5 = 0 := by ext k hk; simp
  have he : (BitVec.ofNat 16 e <<< 10).extractLsb' 10 5 = BitVec.ofNat 5 e := by
    rw [← BitVec.toNat_inj, BitVec.extractLsb'_toNat, BitVec.toNat_shiftLeft, BitVec.toNat_ofNat,
      BitVec.toNat_ofNat, Nat.shiftLeft_eq, Nat.shiftRight_eq_div_pow]
    omega
  rw [BitVec.extractLsb'_or, BitVec.extractLsb'_or, hsgn, hm, he]
  simp

/-- Every pattern of the encoder is a signed zero, a normal half or a signed infinity (R102). -/
theorem encodedHalf_enc16 (x : Word) : encodedHalf (enc16 x) := by
  obtain h | ⟨hlo, hhi⟩ | h : bexp x ≤ 112 ∨ (113 ≤ bexp x ∧ bexp x ≤ 142) ∨ 143 ≤ bexp x := by
    omega
  · rw [enc16_of_underflow h]
    cases sign32 x <;> decide
  · rw [enc16_of_normal hlo hhi, encodedHalf, half_exponent]
    intro hexp
    rw [← BitVec.toNat_inj, ← BitVec.toNat_inj, BitVec.toNat_ofNat] at hexp
    change _ = 31 ∨ _ = 0 at hexp
    omega
  · rw [enc16_of_overflow h]
    cases sign32 x <;> decide

theorem encodedHalf_zero : encodedHalf 0 := by decide

/-! ### The elements of a slot -/

theorem Slot.halfInv_of_unallocated {sl : Slot} (h : sl.valid = false) : sl.HalfInv :=
  fun hv => absurd (h.symm.trans hv) Bool.false_ne_true

/-- CREATE fills every element with zero (R144). -/
theorem Slot.halfInv_created (a : Slot) (rep : Rep) (n : Nat) : (a.created rep n).HalfInv := by
  rintro - rfl i hi
  have hn : i < n := hi.trans_le (Nat.mod_le n (2 ^ 32))
  have hread : memRead (zeroFill a.stor n 2) i 2 = 0 := memRead_zeroFill a.stor hn (by decide)
  change encodedHalf (BitVec.ofNat 16 (memRead (zeroFill a.stor n 2) i 2))
  rw [hread]
  exact encodedHalf_zero

/-- SET stores a pattern of the encoder, and leaves every other element as it was (R142). -/
theorem Slot.halfInv_setval {a : Slot} (hwf : a.stor.wf) (ha : a.HalfInv) (j : Nat) (x : Word)
    (k : Nat) : (setval a j x k).1.HalfInv := by
  by_cases hj : j < u32 a.length
  · rw [setval_in hj]
    intro hv hrep i hi
    change a.rep = .f16 at hrep
    simp only [hrep, repWidth, storedPattern]
    by_cases hij : i = j
    · subst hij
      rw [memRead_memWrite_same hwf, Nat.mod_eq_of_lt (b := 256 ^ 2) (enc16 x).isLt, BitVec.ofNat_toNat,
        BitVec.setWidth_eq]
      exact encodedHalf_enc16 x
    · rw [memRead_memWrite_other _ _ hij (by decide) (by decide)]
      exact ha hv hrep i hi
  · rw [setval_out (Nat.le_of_not_lt hj)]
    exact ha

/-- Every command's write keeps the elements of its slot encoded. -/
theorem Slot.Change.halfInv {maxLen : Nat} {a b : Slot} (h : a.Change maxLen b) (hwf : a.stor.wf)
    (ha : a.HalfInv) : b.HalfInv := by
  cases h with
  | create rep n _ _ => exact Slot.halfInv_created a rep n
  | destroy _ => exact Slot.halfInv_of_unallocated rfl
  | set i x k _ => exact Slot.halfInv_setval hwf ha i x k
  | wscale v _ => exact ha
  | wzp z _ => exact ha

/-! ### The obligations -/

/-- Settles O19: reset unallocates every slot, and every write of a command keeps a slot's elements
encoded. -/
theorem everyStepKeepsHalfElementsEncoded : Obligations.EveryStepKeepsHalfElementsEncoded := by
  rintro s t ⟨-, hinv⟩ hhalf h sl hsl
  obtain ht | ht | ⟨u, a, b, hu, hab, ht⟩ := step_slots h <;> rw [ht] at hsl
  · exact hhalf sl hsl
  · obtain ⟨-, -, rfl⟩ := List.mem_map.mp hsl
    exact Slot.halfInv_of_unallocated rfl
  · obtain hsl | rfl := List.mem_or_eq_of_mem_set hsl
    · exact hhalf sl hsl
    · have ha : a ∈ s.slots := List.mem_of_getElem? hu
      obtain ⟨hwf, -, -⟩ := hinv a ha
      exact hab.halfInv hwf (hhalf a ha)

/-- Settles O18: every slot of the reset state is unallocated. -/
theorem halfElementsEncodedAtReset : Obligations.HalfElementsEncodedAtReset := by
  intro sl hsl
  rw [List.eq_of_mem_replicate hsl]
  exact Slot.halfInv_of_unallocated rfl

end Sys2Proof.Machine
end

section
/-! SUPPORT. States that look the same to every command (R25, R33) answer the same responses and go on
looking the same: the relation over reads, over the writes of commands, and over every instruction. -/

namespace Sys2Proof.Machine

/-! ### Reads -/

/-- Allocated slots that look the same read the same at every index. -/
theorem Slot.sameView.getval {a b : Slot} (h : a.sameView b) (hv : a.valid = true) (i k : Nat) :
    getval a i k = getval b i k := by
  obtain ⟨hrep, hlen, hscale, hzp, helem⟩ := h.2 hv
  by_cases hi : i < u32 a.length
  · rw [getval_in hi, getval_in (hlen ▸ hi), helem i hi, hrep, hscale, hzp]
  · have hle := Nat.le_of_not_lt hi
    rw [getval_out hle, getval_out (hlen ▸ hle)]

theorem denseSum_congr {w w' x x' : Slot} (hw : ∀ i k, getval w i k = getval w' i k)
    (hx : ∀ i k, getval x i k = getval x' i k) (k n : Nat) :
    denseSum w x k n = denseSum w' x' k n := by
  induction n with
  | zero => rfl
  | succ n ih => simp only [denseSum, ih, hw, hx]

/-- Three allocated slots that look the same have the same dense-forward result. -/
theorem dense_sameView {w w' x x' b b' : Slot} (hw : w.sameView w') (hx : x.sameView x')
    (hb : b.sameView b') (hwv : w.valid = true) (hxv : x.valid = true) (hbv : b.valid = true)
    (k : Nat) : dense w x b k = dense w' x' b' k := by
  obtain ⟨-, hlen, -⟩ := hx.2 hxv
  simp only [dense, hlen, denseSum_congr (hw.getval hwv) (hx.getval hxv), hb.getval hbv]

/-! ### Writes -/

theorem Slot.sameView_of_unallocated {a b : Slot} (ha : a.valid = false) (hb : b.valid = false) :
    a.sameView b :=
  ⟨ha.trans hb.symm, fun hv => absurd (ha.symm.trans hv) Bool.false_ne_true⟩

/-- What CREATE leaves does not depend on what the slot held (R32). -/
theorem Slot.sameView_created (a b : Slot) (rep : Rep) (n : Nat) :
    (a.created rep n).sameView (b.created rep n) := by
  refine ⟨rfl, fun _ => ⟨rfl, rfl, rfl, rfl, fun i hi => ?_⟩⟩
  have hn : i < n := hi.trans_le (Nat.mod_le n (2 ^ 32))
  exact (memRead_created a rep hn).trans (memRead_created b rep hn).symm

theorem Slot.sameView.setScale {a b : Slot} (h : a.sameView b) (v : Word) :
    Slot.sameView { a with scale := v } { b with scale := v } := by
  refine ⟨h.1, fun hv => ?_⟩
  obtain ⟨hrep, hlen, -, hzp, helem⟩ := h.2 hv
  exact ⟨hrep, hlen, rfl, hzp, helem⟩

theorem Slot.sameView.setZp {a b : Slot} (h : a.sameView b) (v : Word) :
    Slot.sameView { a with zp := v } { b with zp := v } := by
  refine ⟨h.1, fun hv => ?_⟩
  obtain ⟨hrep, hlen, hscale, -, helem⟩ := h.2 hv
  exact ⟨hrep, hlen, hscale, rfl, helem⟩

/-- Allocated slots that look the same store the same pattern for a value. -/
theorem Slot.sameView.storedPattern {a b : Slot} (h : a.sameView b) (hv : a.valid = true) (x : Word)
    (k : Nat) : storedPattern a x k = storedPattern b x k := by
  obtain ⟨hrep, -, hscale, hzp, -⟩ := h.2 hv
  simp only [Machine.storedPattern, hrep, hscale, hzp]

/-- SET of the same element leaves slots that look the same, and takes the same draws. -/
theorem Slot.sameView.setval {a b : Slot} (h : a.sameView b) (hv : a.valid = true)
    (hawf : a.stor.wf) (hbwf : b.stor.wf) (j : Nat) (x : Word) (k : Nat) :
    (setval a j x k).1.sameView (setval b j x k).1 ∧ (setval a j x k).2 = (setval b j x k).2 := by
  obtain ⟨hrep, hlen, hscale, hzp, helem⟩ := h.2 hv
  by_cases hj : j < u32 a.length
  · rw [setval_in hj, setval_in (hlen ▸ hj), h.storedPattern hv, ← hrep]
    refine ⟨⟨h.1, fun _ => ⟨rfl, hlen, hscale, hzp, fun i hi => ?_⟩⟩, rfl⟩
    by_cases hij : i = j
    · subst hij
      exact (memRead_memWrite_same hawf ..).trans (memRead_memWrite_same hbwf ..).symm
    · have hw := repWidth_le a.rep
      exact (memRead_memWrite_other _ _ hij hw hw).trans
        ((helem i hi).trans (memRead_memWrite_other _ _ hij hw hw).symm)
  · have hle := Nat.le_of_not_lt hj
    rw [setval_out hle, setval_out (hlen ▸ hle)]
    exact ⟨h, rfl⟩

/-! ### States -/

/-- Related lists have related elements at every place. -/
theorem forall₂_getElem? {α : Type} {R : α → α → Prop} {l l' : List α} (h : List.Forall₂ R l l')
    (t : Nat) :
    (l[t]? = none ∧ l'[t]? = none) ∨ ∃ a b, l[t]? = some a ∧ l'[t]? = some b ∧ R a b := by
  induction h generalizing t with
  | nil => exact .inl ⟨rfl, rfl⟩
  | cons hab _ ih =>
    cases t with
    | zero => exact .inr ⟨_, _, rfl, rfl, hab⟩
    | succ t => exact ih t

theorem forall₂_set {α : Type} {R : α → α → Prop} {l l' : List α} (h : List.Forall₂ R l l') {a b : α}
    (hab : R a b) (t : Nat) : List.Forall₂ R (l.set t a) (l'.set t b) := by
  induction h generalizing t with
  | nil => exact .nil
  | cons hcd hl ih =>
    cases t with
    | zero => exact .cons hab hl
    | succ t => exact .cons hcd (ih t)

theorem State.sameView.slots {s s' : State} (h : s.sameView s') :
    List.Forall₂ Slot.sameView s.slots s'.slots := by
  obtain ⟨hslots, -⟩ := h
  exact hslots

theorem State.sameView.maxLen {s s' : State} (h : s.sameView s') : s.maxLen = s'.maxLen := by
  obtain ⟨-, hmax, -⟩ := h
  exact hmax

theorem State.sameView.draws {s s' : State} (h : s.sameView s') : s.draws = s'.draws := by
  obtain ⟨-, -, -, -, hdraws, -⟩ := h
  exact hdraws

theorem State.sameView.setEngine {s s' : State} (h : s.sameView s') (e : Engine) :
    (s.setEngine e).sameView (s'.setEngine e) := by
  obtain ⟨hslots, hmax, -, hrst, hdraws, hin⟩ := h
  exact ⟨hslots, hmax, rfl, hrst, hdraws, hin⟩

theorem State.sameView.setDraws {s s' : State} (h : s.sameView s') (k : Nat) :
    (s.setDraws k).sameView (s'.setDraws k) := by
  obtain ⟨hslots, hmax, heng, hrst, -, hin⟩ := h
  exact ⟨hslots, hmax, heng, hrst, rfl, hin⟩

theorem State.sameView.setSlot {s s' : State} (h : s.sameView s') {a b : Slot} (hab : a.sameView b)
    (t : Nat) : (s.setSlot t a).sameView (s'.setSlot t b) := by
  obtain ⟨hslots, hrest⟩ := h
  exact ⟨forall₂_set hslots hab t, hrest⟩

/-- The slot check passes in both states, on slots that look the same, or in neither. -/
theorem State.sameView.allocated {s s' : State} (h : s.sameView s') (t : Nat) :
    (s.allocated t = none ∧ s'.allocated t = none) ∨
    ∃ a b, s.allocated t = some a ∧ s'.allocated t = some b ∧ a.sameView b := by
  unfold State.allocated
  obtain ⟨ha, hb⟩ | ⟨a, b, ha, hb, hab⟩ := forall₂_getElem? h.slots t
  · exact .inl (by simp [ha, hb])
  · have hvalid : b.valid = a.valid := hab.1.symm
    cases hv : a.valid with
    | false => exact .inl (by simp [ha, hb, hvalid, hv])
    | true => exact .inr ⟨a, b, by simp [ha, hv], by simp [hb, hvalid, hv], hab⟩

/-! ### Results -/

/-- Two results are next states that look the same: so they offer the same response. -/
def SameOutcome (r r' : Result) : Prop := ∃ t t', r = .next t ∧ r' = .next t' ∧ t.sameView t'

theorem State.sameView.raise {s s' : State} (h : s.sameView s') (e : Status) :
    SameOutcome (raise e s) (raise e s') := ⟨_, _, rfl, rfl, h.setEngine _⟩

theorem State.sameView.respond {s s' : State} (h : s.sameView s') (v : Word) :
    SameOutcome (respond v s) (respond v s') := ⟨_, _, rfl, rfl, h.setEngine _⟩

/-- The slot check passes slots on that look the same, and otherwise ends both runs with `ERR_SLOT`. -/
theorem State.sameView.withSlot {s s' : State} (h : s.sameView s') {t : Nat} {f f' : Slot → Result}
    (hf : ∀ a b, a ∈ s.slots → b ∈ s'.slots → a.sameView b → a.valid = true →
      SameOutcome (f a) (f' b)) : SameOutcome (withSlot t s f) (withSlot t s' f') := by
  obtain ⟨ha, hb⟩ | ⟨a, b, ha, hb, hab⟩ := h.allocated t
  · rw [withSlot_unallocated ha, withSlot_unallocated hb]
    exact h.raise .errSlot
  · rw [withSlot_allocated ha, withSlot_allocated hb]
    obtain ⟨has, hv⟩ := State.allocated_eq_some.mp ha
    obtain ⟨hbs, -⟩ := State.allocated_eq_some.mp hb
    exact hf a b (List.mem_of_getElem? has) (List.mem_of_getElem? hbs) hab hv

/-! ### Instructions -/

section
variable {s s' : State} (h : s.sameView s')
include h

theorem execQnt_sameOutcome (t : Nat) (x : Word) :
    SameOutcome (execQnt t x s) (execQnt t x s') := by
  refine h.withSlot fun a b _ _ hab hv => ?_
  obtain ⟨-, -, hscale, hzp, -⟩ := hab.2 hv
  simp only [hscale, hzp, h.draws]
  exact (h.setDraws _).respond _

theorem execDqn_sameOutcome (t : Nat) (c : Int) :
    SameOutcome (execDqn t c s) (execDqn t c s') := by
  refine h.withSlot fun a b _ _ hab hv => ?_
  obtain ⟨-, -, hscale, hzp, -⟩ := hab.2 hv
  simp only [hscale, hzp, h.draws]
  exact (h.setDraws _).respond _

theorem execGet_sameOutcome (t i : Nat) : SameOutcome (execGet t i s) (execGet t i s') := by
  refine h.withSlot fun a b _ _ hab hv => ?_
  simp only [hab.getval hv, h.draws]
  exact (h.setDraws _).respond _

theorem execRscale_sameOutcome (t : Nat) : SameOutcome (execRscale t s) (execRscale t s') := by
  refine h.withSlot fun a b _ _ hab hv => ?_
  obtain ⟨-, -, hscale, -⟩ := hab.2 hv
  rw [hscale]
  exact h.respond _

theorem execRzp_sameOutcome (t : Nat) : SameOutcome (execRzp t s) (execRzp t s') := by
  refine h.withSlot fun a b _ _ hab hv => ?_
  obtain ⟨-, -, -, hzp, -⟩ := hab.2 hv
  rw [hzp]
  exact h.respond _

theorem execDense_sameOutcome (tw tx tbias : Nat) :
    SameOutcome (execDense tw tx tbias s) (execDense tw tx tbias s') := by
  refine h.withSlot fun w w' _ _ hw hwv => h.withSlot fun x x' _ _ hx hxv => h.withSlot
    fun b b' _ _ hb hbv => ?_
  simp only [dense_sameView hw hx hb hwv hxv hbv, h.draws]
  exact (h.setDraws _).respond _

theorem execCreate_sameOutcome (t : Nat) (rep : Rep) (n : Nat) :
    SameOutcome (execCreate t rep n s) (execCreate t rep n s') := by
  obtain ⟨ha, hb⟩ | ⟨a, b, ha, hb, hab⟩ := forall₂_getElem? h.slots t
  · simp only [execCreate, ha, hb]
    exact h.raise .errSlot
  · simp only [execCreate, ha, hb, h.maxLen, hab.1]
    split
    · exact h.raise .errBusy
    · split
      · exact h.raise .errAlloc
      · exact (h.setSlot (Slot.sameView_created a b rep n) t).respond 0

theorem execDestroy_sameOutcome (t : Nat) : SameOutcome (execDestroy t s) (execDestroy t s') :=
  h.withSlot fun _ _ _ _ _ _ =>
    (h.setSlot (Slot.sameView_of_unallocated rfl rfl) t).respond 0

theorem execSet_sameOutcome (hs : s.Inv) (hs' : s'.Inv) (t i : Nat) (x : Word) :
    SameOutcome (execSet t i x s) (execSet t i x s') := by
  refine h.withSlot fun a b ha hb hab hv => ?_
  obtain ⟨hawf, -, -⟩ := hs.2 a ha
  obtain ⟨hbwf, -, -⟩ := hs'.2 b hb
  obtain ⟨hslot, hdraws⟩ := hab.setval hv hawf hbwf i x s'.draws
  simp only [h.draws, hdraws]
  exact ((h.setSlot hslot t).setDraws _).respond 0

theorem execWscale_sameOutcome (t : Nat) (v : Word) :
    SameOutcome (execWscale t v s) (execWscale t v s') :=
  h.withSlot fun _ _ _ _ hab _ => (h.setSlot (hab.setScale v) t).respond 0

theorem execWzp_sameOutcome (t : Nat) (z : Int) :
    SameOutcome (execWzp t z s) (execWzp t z s') :=
  h.withSlot fun _ _ _ _ hab _ => (h.setSlot (hab.setZp _) t).respond 0

end

/-- Settles O25: the slot check, every read and every write of a command go by what looks the same. -/
theorem unobservableStateIsNeverRead : Obligations.UnobservableStateIsNeverRead := by
  intro i s s' hs hs' h
  cases i with
  | f2h x => exact h.respond _
  | h2f n => exact h.respond _
  | qnt t x => exact execQnt_sameOutcome h t x
  | dqn t c => exact execDqn_sameOutcome h t c
  | create t rep n => exact execCreate_sameOutcome h t rep n
  | destroy t => exact execDestroy_sameOutcome h t
  | set t j x => exact execSet_sameOutcome h hs hs' t j x
  | get t j => exact execGet_sameOutcome h t j
  | wscale t v => exact execWscale_sameOutcome h t v
  | rscale t => exact execRscale_sameOutcome h t
  | wzp t z => exact execWzp_sameOutcome h t z
  | rzp t => exact execRzp_sameOutcome h t
  | dense tw tx tbias => exact execDense_sameOutcome h tw tx tbias

end Sys2Proof.Machine
end

section
/-! SUPPORT. Writes that change nothing: storage written with what it holds already, a SET of the same
value to the same element, and a command that repeats its write to a slot (R46). -/

namespace Sys2Proof.Machine

/-! ### Storage -/

/-- A byte written with what it reads as already leaves canonical storage as it is. -/
theorem Memory.writeByte_readByte_self {m : Memory} (hm : m.wf) (a : Nat) :
    m.writeByte a (m.readByte a) = m := by
  refine Memory.ext_of_wf (Memory.wf_writeByte hm _ _) hm fun b => ?_
  by_cases hb : b = a
  · subst hb
    exact Memory.readByte_writeByte_same hm b _
  · exact Memory.readByte_writeByte_other m _ hb

/-- Bytes written with the number they read as already leave canonical storage as it is. -/
theorem Memory.writeBytes_of_readBytes_eq {m : Memory} (hm : m.wf) {a n v : Nat}
    (h : m.readBytes a n = v % 256 ^ n) : m.writeBytes a n v = m := by
  induction n generalizing a v with
  | zero => rfl
  | succ n ih =>
    rw [Memory.readBytes, Nat.pow_succ', Nat.mod_mul] at h
    have hlt := (m.readByte a).isLt
    have hbyte : BitVec.ofNat 8 v = m.readByte a := by
      apply BitVec.eq_of_toNat_eq
      rw [BitVec.toNat_ofNat]
      omega
    have hrest : m.readBytes (a + 1) n = v / 256 % 256 ^ n := by omega
    rw [Memory.writeBytes, hbyte, Memory.writeByte_readByte_self hm, ih hrest]

theorem memWrite_memWrite_same {m : Memory} (hm : m.wf) (i n v : Nat) :
    memWrite (memWrite m i n v) i n v = memWrite m i n v :=
  Memory.writeBytes_of_readBytes_eq (wf_memWrite hm i n v) (memRead_memWrite_same hm i n v)

/-! ### Slots -/

theorem setval_valid (a : Slot) (i : Nat) (x : Word) (k : Nat) :
    (setval a i x k).1.valid = a.valid := by
  unfold setval
  split <;> rfl

/-- The pattern to store goes by the descriptor, which a write keeps (R142). -/
theorem storedPattern_setval (a : Slot) (i : Nat) (x y : Word) (k k' : Nat) :
    storedPattern (setval a i x k).1 y k' = storedPattern a y k' := by
  unfold setval
  split <;> rfl

/-- A second write of one value at the same draw counter stores the pattern that is there. -/
theorem setval_setval_same {a : Slot} (hwf : a.stor.wf) (i : Nat) (x : Word) (k : Nat) :
    (setval (setval a i x k).1 i x k).1 = (setval a i x k).1 := by
  by_cases hi : i < u32 a.length
  · have hi' : i < u32 (setval a i x k).1.length := by rwa [setval_length]
    rw [setval_in hi', storedPattern_setval, setval_rep, setval_in hi]
    simp only [memWrite_memWrite_same hwf]
  · have hle := Nat.le_of_not_lt hi
    simp only [setval_out hle]

/-! ### Commands -/

/-- What SET, WSCALE and WZP do: past the slot check, `write` answers at the draw counter the slot to
leave and the new counter, and the response is `OK` with data 0. -/
def execWrite (write : Slot → Nat → Slot × Nat) (t : Nat) (s : State) : Result :=
  withSlot t s fun a => respond 0 ((s.setSlot t (write a s.draws).1).setDraws (write a s.draws).2)

theorem exec_set_eq (t i : Nat) (x : Word) (s : State) :
    exec (.set t i x) s = execWrite (fun a k => setval a i x k) t s := rfl

theorem exec_wscale_eq (t : Nat) (v : Word) (s : State) :
    exec (.wscale t v) s = execWrite (fun a k => ({ a with scale := v }, k)) t s := rfl

theorem exec_wzp_eq (t : Nat) (z : Int) (s : State) :
    exec (.wzp t z) s = execWrite (fun a k => ({ a with zp := BitVec.ofInt 32 z }, k)) t s := rfl

/-- A command whose write keeps the slot allocated, and whose second write changes no slot that its
first one left, completes again and leaves the slots as they are; after `ERR_SLOT` it ends with
`ERR_SLOT` again. -/
theorem execWrite_twice {write : Slot → Nat → Slot × Nat} {t : Nat} {s s' : State}
    (hvalid : ∀ a k, (write a k).1.valid = a.valid)
    (hagain : ∀ a ∈ s.slots,
      (write (write a s.draws).1 s'.draws).1 = (write a s.draws).1)
    (h : execWrite write t s = .next s') :
    ∃ s'', execWrite write t s' = .next s'' ∧ s''.slots = s'.slots := by
  unfold execWrite at h ⊢
  cases hs : s.allocated t with
  | none =>
    rw [withSlot_unallocated hs] at h
    cases h
    exact ⟨_, withSlot_unallocated hs, rfl⟩
  | some a =>
    rw [withSlot_allocated hs] at h
    obtain ⟨ha, hv⟩ := State.allocated_eq_some.mp hs
    have hslots : s'.slots = s.slots.set t (write a s.draws).1 := by cases h; rfl
    have hs' : s'.allocated t = some (write a s.draws).1 := by
      cases h
      exact State.allocated_setSlot_same (State.lt_of_allocated hs) ((hvalid a _).trans hv)
    refine ⟨_, withSlot_allocated hs', ?_⟩
    simp only [State.setEngine_slots, State.setDraws_slots, State.setSlot_slots, hslots,
      hagain a (List.mem_of_getElem? ha), List.set_set]

/-- Settles O51: a SET without a draw meets the same counter again, so it stores the same pattern over
itself; WSCALE and WZP write a constant. -/
theorem repeatedWritesChangeNothingMore : Obligations.RepeatedWritesChangeNothingMore := by
  refine ⟨fun s s' t i x hs h hdraws => ?_, fun s s' t v h => ?_, fun s s' t z h => ?_⟩
  · simp only [exec_set_eq] at h ⊢
    refine execWrite_twice (fun a k => setval_valid a i x k) (fun a ha => ?_) h
    obtain ⟨hwf, -, -⟩ := hs.2 a ha
    rw [hdraws]
    exact setval_setval_same hwf i x s.draws
  · simp only [exec_wscale_eq] at h ⊢
    exact execWrite_twice (s := s) (fun _ _ => rfl) (fun _ _ => rfl) h
  · simp only [exec_wzp_eq] at h ⊢
    exact execWrite_twice (s := s) (fun _ _ => rfl) (fun _ _ => rfl) h

end Sys2Proof.Machine
end

section
/-! SUPPORT. When a command decodes and to what (R67): the fields of an encoding, the checks that a
decoded command has passed, and that no bit of it is lost. -/

namespace Sys2Proof

open Laws.CleanEncoding (opcode Statement)

/-! ### The decoder's checks -/

/-- A command decodes exactly where its opcode is defined, `res` and the fields the opcode does not use
are zero, and its operands pass the value checks (R67). -/
theorem decode_eq_ok_iff {c : Command} {i : Instr} :
    decode c = .ok i ↔
      ∃ u, usesOf c.op = some u ∧ c.res = 0 ∧ c.unusedZero u = true ∧ c.operands = .ok i := by
  unfold decode
  cases usesOf c.op with
  | none => simp
  | some u =>
    simp only [ne_eq, ite_not, Bool.not_eq_true', ← Bool.not_eq_true, Option.some.injEq,
      exists_eq_left']
    by_cases hres : c.res = 0
    · by_cases hzero : c.unusedZero u = true <;> simp [hres, hzero]
    · simp only [hres, ↓reduceIte, false_and, reduceCtorEq]

/-- The fields that the opcode does not use are zero (R63). -/
theorem unusedZero_iff {c : Command} {u : Uses} :
    c.unusedZero u = true ↔
      (u.ta = false → c.ta = 0) ∧ (u.tb = false → c.tb = 0) ∧ (u.tc = false → c.tc = 0) ∧
        (u.rep = false → c.rep = 0) ∧ (u.a = false → c.a = 0) ∧ (u.b = false → c.b = 0) := by
  have field (used zero : Bool) : (used || zero) = true ↔ (used = false → zero = true) := by
    cases used <;> simp
  simp only [Command.unusedZero, Bool.and_eq_true, and_assoc, field, beq_iff_eq]

/-- The fields of a command hold the operands of an instruction, with the value checks of R64. -/
def Command.Holds (c : Command) : Instr → Prop
  | .f2h x => c.b = x
  | .h2f h => c.b.extractLsb' 16 16 = 0 ∧ (c.b.extractLsb' 0 16).toNat = h
  | .qnt t x => c.ta.toNat = t ∧ c.b = x
  | .dqn t k => c.ta.toNat = t ∧ (-128 ≤ k ∧ k ≤ 127) ∧ c.b.toInt = k
  | .create t r n => c.ta.toNat = t ∧ Rep.ofCode c.rep = some r ∧ c.a.toNat = n
  | .destroy t => c.ta.toNat = t
  | .set t i x => c.ta.toNat = t ∧ c.a.toNat = i ∧ c.b = x
  | .get t i => c.ta.toNat = t ∧ c.a.toNat = i
  | .wscale t s => c.ta.toNat = t ∧ c.b = s
  | .rscale t => c.ta.toNat = t
  | .wzp t z => c.ta.toNat = t ∧ c.b.toInt = z
  | .rzp t => c.ta.toNat = t
  | .dense tw tx tbias => c.ta.toNat = tw ∧ c.tb.toNat = tx ∧ c.tc.toNat = tbias

/-- What the operands of a command can give: an instruction of its opcode that its fields hold. -/
theorem op_and_holds_of_operands {c : Command} {i : Instr} (h : c.operands = .ok i) :
    c.op = opcode i ∧ c.Holds i := by
  unfold Command.operands at h
  rw [← BitVec.toNat_inj]
  split at h
  case h_2 hop =>
    split at h
    · cases h
    case isFalse hb => cases h; exact ⟨hop, not_not.mp hb, rfl⟩
  case h_4 hop =>
    split at h
    case isTrue hk => cases h; exact ⟨hop, rfl, hk, rfl⟩
    · cases h
  case h_5 hop =>
    split at h
    case h_1 r hr => cases h; exact ⟨hop, rfl, hr, rfl⟩
    · cases h
  case h_14 => cases h
  all_goals
    cases h
    simp [opcode, Command.Holds, ‹c.op.toNat = _›]

theorem operands_of_op_of_holds {c : Command} {i : Instr} (hop : c.op = opcode i) (h : c.Holds i) :
    c.operands = .ok i := by
  cases i <;> simp only [Command.Holds] at h <;> simp [Command.operands, hop, opcode, h]

/-! ### From an instruction to its command and back -/

/-- Every encoding carries its opcode, with `res` and every unused field zero. -/
theorem encode_clean (i : Instr) : Statement i := by
  cases i with
  | f2h x => exact Laws.CleanEncoding.f2h x
  | h2f h => exact Laws.CleanEncoding.h2f h
  | qnt t x => exact Laws.CleanEncoding.qnt t x
  | dqn t c => exact Laws.CleanEncoding.dqn t c
  | create t r n => exact Laws.CleanEncoding.create t r n
  | destroy t => exact Laws.CleanEncoding.destroy t
  | set t i x => exact Laws.CleanEncoding.set t i x
  | get t i => exact Laws.CleanEncoding.get t i
  | wscale t s => exact Laws.CleanEncoding.wscale t s
  | rscale t => exact Laws.CleanEncoding.rscale t
  | wzp t z => exact Laws.CleanEncoding.wzp t z
  | rzp t => exact Laws.CleanEncoding.rzp t
  | dense tw tx tbias => exact Laws.CleanEncoding.dense tw tx tbias

theorem toNat_slot {t : Nat} (h : slotOk t = true) : (BitVec.ofNat 4 t).toNat = t :=
  (BitVec.toNat_ofNat t 4).trans (Nat.mod_eq_of_lt (of_decide_eq_true h))

theorem toNat_index {n : Nat} (h : indexOk n = true) : (BitVec.ofNat 32 n).toNat = n :=
  (BitVec.toNat_ofNat n 32).trans (Nat.mod_eq_of_lt (of_decide_eq_true h))

theorem zeroPointOk_of_codeOk {c : Int} (h : codeOk c = true) : zeroPointOk c = true := by
  simp only [codeOk, zeroPointOk, decide_eq_true_eq] at *
  omega

theorem half_fields {h : Nat} (hh : halfOk h = true) :
    (BitVec.ofNat 32 h).extractLsb' 16 16 = 0 ∧
      ((BitVec.ofNat 32 h).extractLsb' 0 16).toNat = h := by
  have hlt : h < 2 ^ 16 := of_decide_eq_true hh
  rw [extractLsb'_eq_iff, BitVec.extractLsb'_toNat, Nat.shiftRight_zero, BitVec.toNat_ofNat]
  change _ = 0 ∧ _
  omega

@[simp] theorem Rep.ofCode_code (r : Rep) : Rep.ofCode r.code = some r := by cases r <;> rfl

theorem Rep.code_of_ofCode {b : BitVec 2} {r : Rep} (h : Rep.ofCode b = some r) : r.code = b := by
  revert b r
  decide

/-- The encoding of a well-formed instruction holds its operands: none is too wide for its field. -/
theorem encode_holds {i : Instr} (h : i.wellFormed = true) : (encode i).Holds i := by
  cases i <;> simp only [Instr.wellFormed, Bool.and_eq_true] at h <;>
    simp only [Command.Holds, encode, Command.ta, Command.tb, Command.tc, Command.rep, header_ta,
      header_tb, header_tc, header_rep]
  case h2f => exact half_fields h
  case dqn =>
    exact ⟨toNat_slot h.1, of_decide_eq_true h.2, Machine.s32_ofInt (zeroPointOk_of_codeOk h.2)⟩
  case create => exact ⟨toNat_slot h.1, Rep.ofCode_code _, toNat_index h.2⟩
  case wzp => exact ⟨toNat_slot h.1, Machine.s32_ofInt h.2⟩
  case dense => exact ⟨toNat_slot h.1.1, toNat_slot h.1.2, toNat_slot h.2⟩
  all_goals simp only [toNat_slot, toNat_index, h, and_self]

/-- What the fields of a command hold is in its range of R71, each field being as wide as its range or
narrowed to it by a value check. -/
theorem wellFormed_of_holds {c : Command} {i : Instr} (h : c.Holds i) : i.wellFormed = true := by
  have hslot (f : BitVec 4) : slotOk f.toNat = true := decide_eq_true f.isLt
  have hindex (w : Word) : indexOk w.toNat = true := decide_eq_true w.isLt
  have hzp (w : Word) : zeroPointOk w.toInt = true :=
    decide_eq_true ⟨w.le_toInt, w.toInt_lt⟩
  cases i <;> simp only [Command.Holds] at h
  case h2f => obtain ⟨-, rfl⟩ := h; exact decide_eq_true (BitVec.isLt _)
  case dqn => obtain ⟨rfl, hk, -⟩ := h; simp [Instr.wellFormed, hslot, codeOk, hk]
  all_goals simp [Instr.wellFormed, ← h, hslot, hindex, hzp]

/-- The fields of a header side by side (R61). -/
theorem h_fields (c : Command) : c.h = c.op ++ c.ta ++ c.tb ++ c.tc ++ c.rep ++ c.res := by
  unfold Command.op Command.ta Command.tb Command.tc Command.rep Command.res
  rw [BitVec.extractLsb'_append_extractLsb'_eq_extractLsb',
    BitVec.extractLsb'_append_extractLsb'_eq_extractLsb',
    BitVec.extractLsb'_append_extractLsb'_eq_extractLsb',
    BitVec.extractLsb'_append_extractLsb'_eq_extractLsb',
    BitVec.extractLsb'_append_extractLsb'_eq_extractLsb']
  · exact BitVec.extractLsb'_eq_self.symm
  all_goals rfl

/-- A header with `res` zero is made of its other fields. -/
theorem header_fields {c : Command} (h : c.res = 0) :
    header c.op c.ta.toNat c.tb.toNat c.tc.toNat c.rep = c.h := by
  rw [h_fields c, h]
  simp only [header, BitVec.ofNat_toNat, BitVec.setWidth_eq]
  rfl

/-- A half pattern whose upper bits are zero is its lower bits. -/
theorem ofNat_low_half {w : Word} (h : w.extractLsb' 16 16 = 0) :
    BitVec.ofNat 32 (w.extractLsb' 0 16).toNat = w := by
  have hhi : w.toNat / 2 ^ 16 % 2 ^ 16 = 0 := (extractLsb'_eq_iff w 16 0).1 h
  have hlt := w.isLt
  apply BitVec.eq_of_toNat_eq
  rw [BitVec.toNat_ofNat, BitVec.extractLsb'_toNat, Nat.shiftRight_zero]
  omega

/-- The fields an instruction's operands stand in, with zero in every other, are the whole command. -/
theorem encode_of_holds {c : Command} {i : Instr} {u : Uses} (hop : c.op = opcode i)
    (hu : usesOf (opcode i) = some u) (hres : c.res = 0) (hzero : c.unusedZero u = true)
    (h : c.Holds i) : encode i = c := by
  have hc : c = ⟨header c.op c.ta.toNat c.tb.toNat c.tc.toNat c.rep, c.a, c.b⟩ := by
    rw [header_fields hres]
  rw [unusedZero_iff] at hzero
  rw [hc]
  cases i <;> cases hu <;>
    simp only [Command.Holds] at h <;>
    simp only [encode, hop, opcode]
  case h2f => obtain ⟨hb, rfl⟩ := h; simp [ofNat_low_half hb, hzero, -BitVec.extractLsb'_toNat]
  case dqn => obtain ⟨rfl, -, rfl⟩ := h; simp [hzero]
  case create =>
    obtain ⟨rfl, hr, rfl⟩ := h
    simp [Rep.code_of_ofCode hr, hzero]
  all_goals simp [← h, hzero]

/-- Settles O1: an encoding passes every check of the decoder, and its fields hold the operands. -/
theorem decodeOfEncodeIsTheInstruction : Obligations.DecodeOfEncodeIsTheInstruction := by
  intro i hi
  obtain ⟨hop, hres, u, hu, hzero⟩ := encode_clean i
  exact decode_eq_ok_iff.2
    ⟨u, hop ▸ hu, hres, hzero, operands_of_op_of_holds hop (encode_holds hi)⟩

/-- Settles O2: a field is either held as an operand or checked to be zero, so no bit is lost. -/
theorem encodeOfDecodeIsTheCommand : Obligations.EncodeOfDecodeIsTheCommand := by
  intro c i h
  obtain ⟨u, hu, hres, hzero, hi⟩ := decode_eq_ok_iff.1 h
  obtain ⟨hop, hholds⟩ := op_and_holds_of_operands hi
  exact ⟨wellFormed_of_holds hholds, encode_of_holds hop (hop ▸ hu) hres hzero hholds⟩

end Sys2Proof
end

section
/-! SUPPORT. The opcode table (R68): each row's mask and match are the fields that its opcode fixes, and
its constraints are the value checks of the decoder. -/

namespace Sys2Proof

open Laws.CleanEncoding (opcode)
open Machine (definedOpcodes rowOf)

/-! ### What decodes -/

/-- The value checks of R64 and R67, which only H2F, DQN and CREATE have. -/
def Command.ValueOk (c : Command) : Prop :=
  (c.op = 0x02 → c.b.extractLsb' 16 16 = 0) ∧
  (c.op = 0x04 → -128 ≤ c.b.toInt ∧ c.b.toInt ≤ 127) ∧
  (c.op = 0x10 → c.rep ≠ 3)

theorem Rep.ofCode_isSome_iff (b : BitVec 2) : (Rep.ofCode b).isSome = true ↔ b ≠ 3 := by
  revert b
  decide

theorem exists_operands_iff {c : Command} {u : Uses} (hu : usesOf c.op = some u) :
    (∃ i, c.operands = .ok i) ↔ c.ValueOk := by
  constructor
  · rintro ⟨i, hi⟩
    obtain ⟨hop, hholds⟩ := op_and_holds_of_operands hi
    unfold Command.ValueOk
    rw [hop]
    cases i <;> simp only [Command.Holds] at hholds <;> simp [opcode]
    case h2f => simpa using hholds.1
    case dqn => obtain ⟨-, hk, rfl⟩ := hholds; exact hk
    case create =>
      obtain ⟨-, hr, -⟩ := hholds
      exact (Rep.ofCode_isSome_iff c.rep).1 (Option.isSome_of_eq_some hr)
  · rintro ⟨hhalf, hcode, hrep⟩
    unfold usesOf at hu
    split at hu
    case h_2 hop => simp [Command.operands, hop, hhalf (BitVec.eq_of_toNat_eq hop)]
    case h_4 hop => simp [Command.operands, hop, hcode (BitVec.eq_of_toNat_eq hop)]
    case h_5 hop =>
      have hsome := (Rep.ofCode_isSome_iff c.rep).2 (hrep (BitVec.eq_of_toNat_eq hop))
      obtain ⟨r, hr⟩ := Option.isSome_iff_exists.1 hsome
      simp [Command.operands, hop, hr]
    case h_14 => cases hu
    all_goals simp [Command.operands, ‹c.op.toNat = _›]

/-- A command decodes exactly where its opcode is defined, `res` and the fields the opcode does not use
are zero, and the value checks hold. -/
theorem exists_decode_iff {c : Command} :
    (∃ i, decode c = .ok i) ↔
      ∃ u, usesOf c.op = some u ∧ c.res = 0 ∧ c.unusedZero u = true ∧ c.ValueOk := by
  simp only [decode_eq_ok_iff]
  constructor
  · rintro ⟨i, u, hu, hres, hzero, hi⟩
    exact ⟨u, hu, hres, hzero, (exists_operands_iff hu).1 ⟨i, hi⟩⟩
  · rintro ⟨u, hu, hres, hzero, hval⟩
    obtain ⟨i, hi⟩ := (exists_operands_iff hu).2 hval
    exact ⟨i, u, hu, hres, hzero, hi⟩

theorem op_of_decode {c : Command} {i : Instr} (h : decode c = .ok i) : c.op = opcode i := by
  obtain ⟨_, _, _, _, hi⟩ := decode_eq_ok_iff.1 h
  exact (op_and_holds_of_operands hi).1

/-! ### The rows -/

/-- The mask of a field: nothing of it is fixed where the opcode uses it, all of it where not. -/
def fieldMask (n : Nat) (used : Bool) : BitVec n := if used then 0#n else BitVec.allOnes n

/-- The mask of `B`: for H2F its upper half is fixed. -/
def operandMask (op : BitVec 8) (used : Bool) : Word :=
  if op = 0x02 then BitVec.allOnes 16 ++ 0#16 else fieldMask 32 used

/-- The fields of a command side by side, from `B` down to `res` (R61, R68). -/
def commandFields (b a : Word) (op : BitVec 8) (ta tb tc : BitVec 4) (rep : BitVec 2) (res : BitVec 10) :
    BitVec (32 + 32 + (8 + 4 + 4 + 4 + 2 + 10)) :=
  b ++ a ++ (op ++ ta ++ tb ++ tc ++ rep ++ res)

/-- The row that a command with opcode `op` and fields `u` ought to have: every bit fixed that belongs to
the opcode, to `res` or to a field not in use. -/
def rowFor (op : BitVec 8) (u : Uses) : Row :=
  { mask := commandFields (operandMask op u.b) (fieldMask 32 u.a) (BitVec.allOnes 8)
      (fieldMask 4 u.ta) (fieldMask 4 u.tb) (fieldMask 4 u.tc) (fieldMask 2 u.rep) (BitVec.allOnes 10)
    value := commandFields 0 0 op 0 0 0 0 0 }

/-- Row `k` belongs to opcode `k` of R64's table. -/
theorem opcodeRows_eq :
    opcodeRows.map some = definedOpcodes.map fun n =>
      (usesOf (BitVec.ofNat 8 n)).map (rowFor (BitVec.ofNat 8 n)) := by
  decide

theorem exists_opcode_of_row {k : Nat} {r : Row} (h : opcodeRows[k]? = some r) :
    ∃ op u, definedOpcodes[k]? = some op.toNat ∧ usesOf op = some u ∧ r = rowFor op u := by
  have hk := congrArg (·[k]?) opcodeRows_eq
  simp only [List.getElem?_map, h, Option.map_some] at hk
  obtain ⟨n, hn, hr⟩ := Option.map_eq_some_iff.1 hk.symm
  obtain ⟨u, hu, rfl⟩ := Option.map_eq_some_iff.1 hr
  have small : ∀ n ∈ definedOpcodes, (BitVec.ofNat 8 n).toNat = n := by decide
  refine ⟨BitVec.ofNat 8 n, u, ?_, hu, rfl⟩
  rw [small n (List.mem_of_getElem? hn)]
  exact hn

/-- Row numbers and opcodes are in the same order. -/
theorem definedOpcodes_rowOf (i : Instr) : definedOpcodes[rowOf i]? = some (opcode i).toNat := by
  cases i <;> rfl

theorem rowOf_eq_iff {i : Instr} {k : Nat} {op : BitVec 8}
    (hk : definedOpcodes[k]? = some op.toNat) : rowOf i = k ↔ opcode i = op := by
  have hi := definedOpcodes_rowOf i
  constructor
  · rintro rfl
    rw [hi] at hk
    exact BitVec.eq_of_toNat_eq (Option.some.inj hk)
  · rintro rfl
    have hlt : rowOf i < definedOpcodes.length := (List.getElem?_eq_some_iff.1 hi).1
    exact (List.getElem?_inj hlt (by decide)).1 (hi.trans hk.symm)

/-! ### Mask, match and constraints -/

theorem bitVec_append_inj {m n : Nat} {x x' : BitVec m} {y y' : BitVec n} :
    x ++ y = x' ++ y' ↔ x = x' ∧ y = y' := by
  refine ⟨fun h => ⟨?_, ?_⟩, fun ⟨hx, hy⟩ => by rw [hx, hy]⟩
  · simpa only [BitVec.extractLsb'_append_eq_left] using congrArg (·.extractLsb' n m) h
  · simpa only [BitVec.extractLsb'_append_eq_right] using congrArg (·.extractLsb' 0 n) h

theorem commandFields_inj {b a b' a' : Word} {op op' : BitVec 8} {ta tb tc ta' tb' tc' : BitVec 4}
    {rep rep' : BitVec 2} {res res' : BitVec 10} :
    commandFields b a op ta tb tc rep res = commandFields b' a' op' ta' tb' tc' rep' res' ↔
      b = b' ∧ a = a' ∧ op = op' ∧ ta = ta' ∧ tb = tb' ∧ tc = tc' ∧ rep = rep' ∧ res = res' := by
  simp only [commandFields, bitVec_append_inj, and_assoc]

theorem commandFields_and (b a b' a' : Word) (op op' : BitVec 8) (ta tb tc ta' tb' tc' : BitVec 4)
    (rep rep' : BitVec 2) (res res' : BitVec 10) :
    commandFields b a op ta tb tc rep res &&& commandFields b' a' op' ta' tb' tc' rep' res' =
      commandFields (b &&& b') (a &&& a') (op &&& op') (ta &&& ta') (tb &&& tb') (tc &&& tc')
        (rep &&& rep') (res &&& res') := by
  simp only [commandFields, BitVec.and_append]

theorem bits_eq_commandFields (c : Command) :
    c.bits = commandFields c.b c.a c.op c.ta c.tb c.tc c.rep c.res := by
  rw [Command.bits, h_fields]
  rfl

theorem and_fieldMask {n : Nat} {x : BitVec n} {used : Bool} :
    x &&& fieldMask n used = 0 ↔ (used = false → x = 0) := by
  cases used <;> simp [fieldMask]

theorem and_upperHalf (w : Word) :
    w &&& (BitVec.allOnes 16 ++ 0#16) = 0 ↔ w.extractLsb' 16 16 = 0 := by
  have hw : w = w.extractLsb' 16 16 ++ w.extractLsb' 0 16 := by
    rw [BitVec.extractLsb'_append_extractLsb'_eq_extractLsb']
    · exact BitVec.extractLsb'_eq_self.symm
    · rfl
  generalize w.extractLsb' 16 16 = hi at hw ⊢
  generalize w.extractLsb' 0 16 = lo at hw
  subst hw
  calc (hi ++ lo) &&& (BitVec.allOnes 16 ++ 0#16) = 0#16 ++ 0#16
      ↔ hi &&& BitVec.allOnes 16 = 0#16 ∧ lo &&& 0#16 = 0#16 := by rw [BitVec.and_append, bitVec_append_inj]
    _ ↔ hi = 0#16 := by simp only [BitVec.and_allOnes, BitVec.and_zero, and_true]

theorem and_operandMask {op : BitVec 8} {u : Uses} (hu : usesOf op = some u) {w : Word} :
    w &&& operandMask op u.b = 0 ↔
      (u.b = false → w = 0) ∧ (op = 0x02 → w.extractLsb' 16 16 = 0) := by
  by_cases hop : op = 0x02
  · subst hop
    obtain rfl : { b := true } = u := Option.some.inj hu
    rw [operandMask, if_pos rfl, and_upperHalf]
    simp
  · rw [operandMask, if_neg hop, and_fieldMask]
    simp only [hop, false_implies, and_true]

/-- Mask and match (R68) say that the opcode is the row's and that `res` and every unused field are
zero. -/
theorem and_mask_iff {c : Command} {op : BitVec 8} {u : Uses} (hu : usesOf op = some u) :
    c.bits &&& (rowFor op u).mask = (rowFor op u).value ↔
      c.op = op ∧ c.res = 0 ∧ c.unusedZero u = true ∧ (op = 0x02 → c.b.extractLsb' 16 16 = 0) := by
  rw [bits_eq_commandFields, unusedZero_iff]
  simp only [rowFor]
  rw [commandFields_and, commandFields_inj, and_operandMask hu]
  simp only [and_fieldMask, BitVec.and_allOnes]
  tauto

/-- Rows of different opcodes have different matches. -/
theorem rowFor_value_eq_iff {op op' : BitVec 8} {u u' : Uses} :
    (rowFor op u).value = (rowFor op' u').value ↔ op = op' := by
  simp only [rowFor]
  rw [commandFields_inj]
  simp only [true_and, and_true]

/-- `C[95:72]` all equal to `C[71]` says that `B` is an int8 code (R64, R68). -/
theorem code_bits_iff (w : Word) :
    w.extractLsb' 8 24 = (if w.getLsbD 7 then BitVec.allOnes 24 else 0) ↔
      -128 ≤ w.toInt ∧ w.toInt ≤ 127 := by
  have hlt := w.isLt
  rw [extractLsb'_eq_iff, BitVec.toInt_eq_toNat_cond, BitVec.getLsbD, Nat.testBit_eq_decide_div_mod_eq]
  by_cases h : w.toNat / 2 ^ 7 % 2 = 1
  · simp only [h, decide_true, if_true, BitVec.toNat_allOnes]
    split <;> omega
  · simp only [h, decide_false, Bool.false_eq_true, if_false]
    change _ = 0 ↔ _
    split <;> omega

theorem constraint_iff {c : Command} {op : BitVec 8} {u : Uses} :
    (rowFor op u).constraint c.bits = true ↔
      (op = 0x04 → -128 ≤ c.b.toInt ∧ c.b.toInt ≤ 127) ∧ (op = 0x10 → c.rep ≠ 3) := by
  have hcreate : (rowFor op u).value = 0x10000000#96 ↔ op = 0x10 :=
    rowFor_value_eq_iff (op' := 0x10) (u' := {})
  have hdqn : (rowFor op u).value = 0x04000000#96 ↔ op = 0x04 :=
    rowFor_value_eq_iff (op' := 0x04) (u' := {})
  have hrep : c.bits.extractLsb' 10 2 = c.rep := BitVec.extractLsb'_append_eq_of_add_le (by decide)
  have hhi : c.bits.extractLsb' 72 24 = c.b.extractLsb' 8 24 := by
    rw [Command.bits, BitVec.extractLsb'_append_eq_of_le (by decide),
      BitVec.extractLsb'_append_eq_of_le (by decide)]
  have hbit : c.bits.getLsbD 71 = c.b.getLsbD 7 := by
    rw [Command.bits, BitVec.getLsbD_append, if_neg (by decide), BitVec.getLsbD_append,
      if_neg (by decide)]
  simp only [Row.constraint, hcreate, hdqn, hrep, hhi, hbit]
  by_cases h1 : op = 0x10
  · subst h1; simp
  · by_cases h2 : op = 0x04
    · subst h2; simpa using code_bits_iff c.b
    · simp only [h1, h2, if_false, false_implies, and_self]

/-- A row selects the commands of its opcode that decode. -/
theorem selects_iff {c : Command} {op : BitVec 8} {u : Uses} (hu : usesOf op = some u) :
    (rowFor op u).selects c.bits = true ↔ c.op = op ∧ ∃ i, decode c = .ok i := by
  rw [Row.selects, Bool.and_eq_true, beq_iff_eq, and_mask_iff hu, constraint_iff, exists_decode_iff]
  constructor
  · rintro ⟨⟨rfl, hres, hzero, hhalf⟩, hcode, hrep⟩
    exact ⟨rfl, u, hu, hres, hzero, hhalf, hcode, hrep⟩
  · rintro ⟨rfl, u', hu', hres, hzero, hhalf, hcode, hrep⟩
    obtain rfl := Option.some.inj (hu.symm.trans hu')
    exact ⟨⟨rfl, hres, hzero, hhalf⟩, hcode, hrep⟩

theorem row_selects_iff {c : Command} {k : Nat} {r : Row} (h : opcodeRows[k]? = some r) :
    r.selects c.bits = true ↔ ∃ i, decode c = .ok i ∧ rowOf i = k := by
  obtain ⟨op, u, hk, hu, rfl⟩ := exists_opcode_of_row h
  rw [selects_iff hu]
  simp only [rowOf_eq_iff hk]
  constructor
  · rintro ⟨hop, i, hi⟩
    exact ⟨i, hi, (op_of_decode hi).symm.trans hop⟩
  · rintro ⟨i, hi, hop⟩
    exact ⟨(op_of_decode hi).trans hop, i, hi⟩

/-- Settles O3: the rows are R64's table with a mask for each field, so a row selects what the decoder's
checks let pass; and a command has one row since it decodes to one instruction. -/
theorem tableRowsSelectWhatDecodes : Obligations.TableRowsSelectWhatDecodes := by
  refine ⟨fun c k r hr => row_selects_iff hr, fun c j k r r' hj hk hr hr' => ?_⟩
  obtain ⟨i, hi, rfl⟩ := (row_selects_iff hj).1 hr
  obtain ⟨i', hi', rfl⟩ := (row_selects_iff hk).1 hr'
  rw [Except.ok.inj (hi.symm.trans hi')]

end Sys2Proof
end

section
/-! SUPPORT. What the assembler answers on any line, and on an instruction written in R70's form. -/

namespace Sys2Proof.Machine

/-! ### Any line -/

/-- A line is assembled where it is read and every instruction it names is in its ranges (R70, R71). -/
theorem assembleLine_eq_some_iff {line : List Char} {l : List Command} :
    assembleLine line = some l ↔
      ∃ is, readLine line = some is ∧ (∀ i ∈ is, i.wellFormed = true) ∧ l = is.map encode := by
  unfold assembleLine
  cases readLine line with
  | none => simp
  | some is =>
    simp only [Option.some.injEq, exists_eq_left', ← List.all_eq_true]
    split
    next hall => simp [hall, eq_comm]
    next hall => simp [hall]

theorem assembleLine_eq_none {line : List Char} {is : List Instr} {i : Instr}
    (h : readLine line = some is) (hi : i ∈ is) (hwf : i.wellFormed = false) :
    assembleLine line = none := by
  rw [Option.eq_none_iff_forall_ne_some]
  intro l hl
  obtain ⟨is', h', hall, -⟩ := assembleLine_eq_some_iff.1 hl
  obtain rfl := Option.some.inj (h.symm.trans h')
  simp [hall i hi] at hwf

theorem assembleLine_of_readLine_eq_none {line : List Char} (h : readLine line = none) :
    assembleLine line = none := by
  simp [assembleLine, h]

/-- Settles O6: a command emitted is the encoding of an instruction in its ranges, which O1 decodes. -/
theorem assembledCommandsDecode : Obligations.AssembledCommandsDecode := by
  refine fun line => ⟨fun l => assembleLine_eq_some_iff, fun l c hl hc => ?_,
    fun is i h hi hwf => assembleLine_eq_none h hi hwf⟩
  obtain ⟨is, h, hall, rfl⟩ := assembleLine_eq_some_iff.1 hl
  obtain ⟨i, hi, rfl⟩ := List.mem_map.1 hc
  exact ⟨is, i, h, hi, hall i hi, rfl, decodeOfEncodeIsTheInstruction i (hall i hi)⟩

/-! ### A written instruction -/

theorem plain_writtenForm (i : Instr) :
    Plain (writtenForm i).1 ∧ (writtenForm i).2 ≠ [] ∧ ∀ o ∈ (writtenForm i).2, Plain o := by
  cases i <;>
    simp [writtenForm, plain_slotText, plain_intText, plain_repText, plain_wordText, plain_toDigits]
  all_goals simp [Plain]

theorem bind_slot {α : Type} (t : Nat) (f : Nat → Option α) :
    (if t < 16 then some t else none).bind f = if t < 16 then f t else none := by
  split <;> rfl

/-- Every other operand of a written instruction is read as it stands, so that only a slot past `t15`
keeps the form from being read. -/
theorem assembleForm_writtenForm (i : Instr) :
    assembleForm (writtenForm i).1 (writtenForm i).2 =
      if ∀ t ∈ namedSlots i, t < 16 then some [i] else none := by
  cases i <;> simp [writtenForm, assembleForm, namedSlots, bind_slot, ite_and]

theorem readLine_writeLine (i : Instr) :
    readLine (writeLine i) = if ∀ t ∈ namedSlots i, t < 16 then some [i] else none := by
  obtain ⟨hname, hne, hops⟩ := plain_writtenForm i
  rw [writeLine, readLine_form hname hne hops, assembleForm_writtenForm]

theorem namedSlots_lt {i : Instr} (h : i.wellFormed = true) : ∀ t ∈ namedSlots i, t < 16 := by
  cases i <;> simp [Instr.wellFormed, slotOk] at h <;> simp [namedSlots, h]

/-- Settles O56: a slot past `t15` is no slot's name, and every other operand out of its range is read and
then refused. -/
theorem writtenInstructionsAssemble : Obligations.WrittenInstructionsAssemble := by
  refine fun i => ⟨fun hwf => ?_, fun hwf => ?_⟩
  · rw [assembleLine_eq_some_iff]
    exact ⟨[i], by rw [readLine_writeLine, if_pos (namedSlots_lt hwf)], by simpa using hwf, rfl⟩
  · by_cases hslots : ∀ t ∈ namedSlots i, t < 16
    · have hread : readLine (writeLine i) = some [i] := by rw [readLine_writeLine, if_pos hslots]
      exact assembleLine_eq_none hread (List.mem_singleton_self i) hwf
    · exact assembleLine_of_readLine_eq_none (by rw [readLine_writeLine, if_neg hslots])

/-- Settles O57: the readers' lemma for each direction. -/
theorem slotNamesAreExactlyT0ToT15 : Obligations.SlotNamesAreExactlyT0ToT15 := by
  refine fun l t => ⟨slotName_eq_some, ?_⟩
  rintro ⟨ht, rfl⟩
  exact (slotName_slotText t).trans (if_pos ht)

end Sys2Proof.Machine
end

section
/-! SUPPORT. Commands whose opcode is none of the 13, and commands written out from the tables. -/

namespace Sys2Proof.Machine

theorem usesOf_of_reserved {op : BitVec 8} (h : op.toNat ∉ definedOpcodes) : usesOf op = none := by
  simp only [definedOpcodes, List.mem_cons, not_or] at h
  simp [usesOf, h]

theorem decode_of_reserved {c : Command} (h : c.op.toNat ∉ definedOpcodes) :
    decode c = .error .reservedOpcode := by
  simp only [decode, usesOf_of_reserved h]

/-- A command that does not decode ends with `ERR_ILLEGAL` and data 0 (R205, R208). -/
theorem runCommand_of_error {c : Command} {e : DecodeError} (h : decode c = .error e) (s : State) :
    runCommand c s = .next (s.setEngine (.resp .errIllegal 0)) := by
  simp only [runCommand, h, raise_eq]

/-- Settles O9: the opcode is looked up before any other check. -/
theorem reservedOpcodesAreIllegal : Obligations.ReservedOpcodesAreIllegal :=
  fun _ s h => ⟨decode_of_reserved h, runCommand_of_error (decode_of_reserved h) s⟩

/-- Settles O5, by running the decoder on each word. -/
theorem tableWordsDecode : Obligations.TableWordsDecode := ⟨rfl, rfl, rfl, rfl, rfl⟩

end Sys2Proof.Machine
end

section
/-! SUPPORT. The half-float codec as arithmetic on the fields (R101, R103), and what follows for its
two commands, for the values it decodes, and for both round trips (R102 to R108). -/

namespace Sys2Proof.Machine

/-! ### The codec in numbers -/

/-- The 15 low bits of the half encoded from the binary32 pattern numbered `x` (R101, R102). -/
def halfMag (x : Nat) : Nat :=
  if x / 2 ^ 23 % 256 ≤ 112 then 0
  else if x / 2 ^ 23 % 256 ≤ 142 then
    (x / 2 ^ 23 % 256 - 112) * 2 ^ 10 + x % 2 ^ 23 / 2 ^ 13
  else 0x7C00

/-- The 31 low bits of the binary32 pattern decoded from the half numbered `h` (R103). -/
def wordMag (h : Nat) : Nat :=
  if h / 2 ^ 10 % 32 = 0 then 0 else (h / 2 ^ 10 % 32 + 112) * 2 ^ 23 + h % 2 ^ 10 * 2 ^ 13

theorem halfMag_lt (x : Nat) : halfMag x < 2 ^ 15 := by
  unfold halfMag
  split_ifs <;> omega

theorem wordMag_le (h : Nat) : wordMag h ≤ 0x47FFE000 := by
  unfold wordMag
  split_ifs <;> omega

theorem wordMag_lt (h : Nat) : wordMag h < 2 ^ 31 := (wordMag_le h).trans_lt (by decide)

theorem halfMag_toNat (x : Word) :
    halfMag x.toNat =
      if bexp x ≤ 112 then 0
      else if bexp x ≤ 142 then (bexp x - 112) * 2 ^ 10 + frac x / 2 ^ 13 else 0x7C00 := by
  rw [bexp_eq, frac_eq]
  rfl

/-- Three fields that do not overlap are put together by `|||` as by a sum. -/
theorem or_fields_eq_add {s e m j k : Nat} (he : e < 2 ^ k) (hm : m < 2 ^ j) :
    s * 2 ^ (j + k) ||| e * 2 ^ j ||| m = s * 2 ^ (j + k) + (e * 2 ^ j + m) := by
  have hem : e * 2 ^ j ||| m = e * 2 ^ j + m := by
    rw [← Nat.shiftLeft_eq, Nat.shiftLeft_add_eq_or_of_lt hm]
  have hlt : e * 2 ^ j + m < 2 ^ (j + k) := by
    calc e * 2 ^ j + m < (e + 1) * 2 ^ j := by rw [Nat.succ_mul]; omega
      _ ≤ 2 ^ k * 2 ^ j := Nat.mul_le_mul_right _ he
      _ = 2 ^ (j + k) := by rw [Nat.add_comm, Nat.pow_add]
  rw [Nat.or_assoc, hem, ← Nat.shiftLeft_eq s, Nat.shiftLeft_add_eq_or_of_lt hlt]

theorem toNat_ofNat_shiftLeft {w e j : Nat} (h : e * 2 ^ j < 2 ^ w) :
    (BitVec.ofNat w e <<< j).toNat = e * 2 ^ j := by
  have he : e < 2 ^ w := (Nat.le_mul_of_pos_right e (by positivity)).trans_lt h
  rw [BitVec.toNat_shiftLeft, BitVec.toNat_ofNat, Nat.mod_eq_of_lt he, Nat.shiftLeft_eq,
    Nat.mod_eq_of_lt h]

/-- The high bit of a number of `k + 1` bits, moved to another place. -/
theorem ite_le_eq_div_mul {n k : Nat} (h : n < 2 ^ (k + 1)) (a : Nat) :
    (if decide (2 ^ k ≤ n) then a else 0) = n / 2 ^ k * a := by
  by_cases hp : 2 ^ k ≤ n
  · rw [if_pos (decide_eq_true hp), Nat.div_eq_of_lt_le (k := 1) (by omega) (by omega),
      Nat.one_mul]
  · rw [if_neg (by simpa using hp), Nat.div_eq_of_lt (by omega), Nat.zero_mul]

theorem halfSign_sign32_toNat (x : Word) :
    (halfSign (sign32 x)).toNat = x.toNat / 2 ^ 31 * 2 ^ 15 := by
  rw [halfSign, apply_ite BitVec.toNat, sign32_eq]
  exact ite_le_eq_div_mul x.isLt (2 ^ 15)

/-- The encoded half is the sign and `halfMag`. -/
theorem enc16_toNat (x : Word) :
    (enc16 x).toNat = x.toNat / 2 ^ 31 * 2 ^ 15 + halfMag x.toNat := by
  rw [← halfSign_sign32_toNat, halfMag_toNat]
  split_ifs with hlow hnormal
  · rw [enc16_of_underflow hlow, Nat.add_zero]
  · have hlt := frac_lt x
    have hfrac : (x.extractLsb' 13 10).toNat = frac x / 2 ^ 13 := by
      rw [BitVec.extractLsb'_toNat, Nat.shiftRight_eq_div_pow, frac_eq]
      omega
    rw [enc16_of_normal (by omega) hnormal, BitVec.toNat_or, BitVec.toNat_or,
      toNat_ofNat_shiftLeft (by omega), BitVec.zeroExtend_eq_setWidth,
      BitVec.toNat_setWidth_of_le (by decide), hfrac, halfSign_sign32_toNat]
    exact or_fields_eq_add (j := 10) (k := 5) (by omega) (by omega)
  · rw [enc16_of_overflow (by omega)]
    cases sign32 x <;> rfl

/-- The decoded word is the sign and `wordMag`. -/
theorem dec16_toNat (h : Half) :
    (dec16 h).toNat = h.toNat / 2 ^ 15 * 2 ^ 31 + wordMag h.toNat := by
  have hsign : (if h.getLsbD 15 then (0x80000000 : Word) else 0).toNat =
      h.toNat / 2 ^ 15 * 2 ^ 31 := by
    rw [apply_ite BitVec.toNat, show h.getLsbD 15 = h.msb from (BitVec.msb_eq_getLsbD_last h).symm,
      BitVec.msb_eq_decide]
    exact ite_le_eq_div_mul h.isLt (2 ^ 31)
  have hexp : (h.extractLsb' 10 5).toNat = h.toNat / 2 ^ 10 % 32 := by
    rw [BitVec.extractLsb'_toNat, Nat.shiftRight_eq_div_pow]
  have hfrac : ((h.extractLsb' 0 10).zeroExtend 32 <<< 13 : Word).toNat =
      h.toNat % 2 ^ 10 * 2 ^ 13 := by
    rw [BitVec.zeroExtend_eq_setWidth, ← BitVec.ofNat_toNat, BitVec.extractLsb'_toNat,
      Nat.shiftRight_zero]
    exact toNat_ofNat_shiftLeft (by omega)
  by_cases hzero : h.toNat / 2 ^ 10 % 32 = 0
  · simp only [dec16, wordMag, hexp, if_pos hzero, hsign, Nat.add_zero]
  · simp only [dec16, wordMag, hexp, if_neg hzero]
    rw [BitVec.toNat_or, BitVec.toNat_or, toNat_ofNat_shiftLeft (by omega), hfrac, hsign]
    exact or_fields_eq_add (j := 23) (k := 8) (by omega) (by omega)

theorem dec16_eq_pack32 (h : Half) :
    dec16 h = pack32 (decide (2 ^ 15 ≤ h.toNat)) (wordMag h.toNat) := by
  apply BitVec.eq_of_toNat_eq
  rw [dec16_toNat, pack32_toNat _ (wordMag_lt _), ite_le_eq_div_mul h.isLt]

/-! ### The two commands -/

theorem exec_f2h (x : Word) (s : State) :
    exec (.f2h x) s = .next (s.setEngine (.resp .ok (zext16 (enc16 x)))) := rfl

theorem exec_h2f (h : Nat) (s : State) :
    exec (.h2f h) s = .next (s.setEngine (.resp .ok (dec16 (BitVec.ofNat 16 h)))) := rfl

/-- Settles O26: F2H answers the number of `enc16_toNat`. -/
theorem f2hRespondsByInputClass : Obligations.F2hRespondsByInputClass := by
  intro x s
  have hout : zext16 (enc16 x) = BitVec.ofNat 32 (x.toNat / 2 ^ 31 * 2 ^ 15 + halfMag x.toNat) := by
    rw [← enc16_toNat, BitVec.ofNat_toNat, zext16, BitVec.zeroExtend_eq_setWidth]
  rw [exec_f2h, hout]
  rfl

/-- Settles O27: H2F answers the number of `dec16_toNat`. -/
theorem h2fRespondsByExponentField : Obligations.H2fRespondsByExponentField := by
  intro h s hh
  have hout : dec16 (BitVec.ofNat 16 h) = BitVec.ofNat 32 (h / 2 ^ 15 * 2 ^ 31 + wordMag h) := by
    have hlt := wordMag_lt h
    rw [← BitVec.toNat_inj, dec16_toNat, BitVec.toNat_ofNat, BitVec.toNat_ofNat,
      Nat.mod_eq_of_lt hh, Nat.mod_eq_of_lt (by omega)]
  rw [exec_h2f, hout]
  rfl

/-! ### Decoded values -/

theorem bexp_dec16 (h : Half) :
    bexp (dec16 h) = if h.toNat / 2 ^ 10 % 32 = 0 then 0 else h.toNat / 2 ^ 10 % 32 + 112 := by
  rw [dec16_eq_pack32, bexp_pack32 _ (wordMag_lt _)]
  unfold wordMag
  split_ifs <;> omega

theorem frac_dec16 (h : Half) :
    frac (dec16 h) = if h.toNat / 2 ^ 10 % 32 = 0 then 0 else h.toNat % 2 ^ 10 * 2 ^ 13 := by
  rw [dec16_eq_pack32, frac_pack32 _ (wordMag_lt _)]
  unfold wordMag
  split_ifs <;> omega

theorem sign32_dec16 (h : Half) : sign32 (dec16 h) = decide (2 ^ 15 ≤ h.toNat) := by
  rw [dec16_eq_pack32, sign32_pack32 _ (wordMag_lt _)]

theorem finite32_dec16 (h : Half) : finite32 (dec16 h) := by
  rw [dec16_eq_pack32]
  exact finite32_pack32 _ ((wordMag_le _).trans_lt (by decide))

/-- Exponent field 0 decodes to a zero, so no decoded half is a nonzero subnormal. -/
theorem frac_dec16_of_bexp_eq_zero {h : Half} (hb : bexp (dec16 h) = 0) : frac (dec16 h) = 0 := by
  rw [bexp_dec16] at hb
  rw [frac_dec16, if_pos (by split_ifs at hb; assumption)]

/-- Magnitudes rise with the low bits, and 0x47FFE000 has the greatest ones. -/
theorem magUnits_dec16_le (h : Half) : magUnits (dec16 h) ≤ magUnits 0x47FFE000 := by
  have hmax : magUnits 0x47FFE000 = gridMag 0x47FFE000 :=
    magUnits_pack32_eq_gridMag false (mag := 0x47FFE000) (by decide)
  rw [hmax, dec16_eq_pack32, magUnits_pack32_eq_gridMag _ (wordMag_lt _)]
  exact gridMag_strictMono.monotone (wordMag_le _)

/-- Exponent field 31 is an exponent like the others, 2^16 (R106). -/
theorem magUnits_dec16_of_exponent_31 {h : Half} (he : h.toNat / 2 ^ 10 % 32 = 31) :
    magUnits (dec16 h) = 2 ^ 16 * 2 ^ 149 / 1024 * (1024 + h.toNat % 2 ^ 10) := by
  have hne : h.toNat / 2 ^ 10 % 32 ≠ 0 := by omega
  have hb : bexp (dec16 h) = 143 := by rw [bexp_dec16, if_neg hne, he]
  rw [magUnits, hb, if_neg (by decide), frac_dec16, if_neg hne]
  norm_num
  ring

/-- Settles O28: the fields of a decoded half, and the model run on the four examples. -/
theorem decodedHalvesAreFinite : Obligations.DecodedHalvesAreFinite :=
  ⟨fun h => ⟨finite32_dec16 h, frac_dec16_of_bexp_eq_zero, magUnits_dec16_le h,
    fun he => ⟨magUnits_dec16_of_exponent_31 he, sign32_dec16 h⟩⟩, rfl, rfl, rfl, rfl⟩

/-! ### From a half and back -/

theorem halfMag_dec16 (h : Half) :
    halfMag (dec16 h).toNat =
      if h.toNat / 2 ^ 10 % 32 = 0 then 0
      else if h.toNat / 2 ^ 10 % 32 = 31 then 0x7C00 else h.toNat % 2 ^ 15 := by
  rw [halfMag_toNat, bexp_dec16, frac_dec16]
  by_cases h0 : h.toNat / 2 ^ 10 % 32 = 0
  · simp only [if_pos h0]
    rfl
  · simp only [if_neg h0]
    rw [if_neg (by omega)]
    by_cases h31 : h.toNat / 2 ^ 10 % 32 = 31
    · rw [if_neg (by omega), if_pos h31]
    · rw [if_pos (by omega), if_neg h31]
      omega

theorem enc16_dec16_toNat (h : Half) :
    (enc16 (dec16 h)).toNat = h.toNat / 2 ^ 15 * 2 ^ 15 +
      if h.toNat / 2 ^ 10 % 32 = 0 then 0
      else if h.toNat / 2 ^ 10 % 32 = 31 then 0x7C00 else h.toNat % 2 ^ 15 := by
  have hsign : (dec16 h).toNat / 2 ^ 31 = h.toNat / 2 ^ 15 := by
    have hlt := wordMag_lt h.toNat
    rw [dec16_toNat]
    omega
  rw [enc16_toNat, hsign, halfMag_dec16]

/-! ### From a binary32 pattern and back -/

/-- The decoder reads the sign bit apart from the other fields. -/
theorem wordMag_sign_add (s m : Nat) :
    wordMag (s * 2 ^ 15 + m) = wordMag m := by
  rw [wordMag, wordMag, show (s * 2 ^ 15 + m) / 2 ^ 10 % 32 = m / 2 ^ 10 % 32 by omega,
    show (s * 2 ^ 15 + m) % 2 ^ 10 = m % 2 ^ 10 by omega]

theorem dec16_enc16 (x : Word) :
    dec16 (enc16 x) = pack32 (sign32 x) (wordMag (halfMag x.toNat)) := by
  have hlt := halfMag_lt x.toNat
  have hsign : 2 ^ 15 ≤ x.toNat / 2 ^ 31 * 2 ^ 15 + halfMag x.toNat ↔ 2 ^ 31 ≤ x.toNat := by omega
  rw [dec16_eq_pack32, enc16_toNat, wordMag_sign_add, sign32_eq, decide_eq_decide.mpr hsign]

theorem dec16_enc16_of_underflow {x : Word} (h : bexp x ≤ 112) :
    dec16 (enc16 x) = pack32 (sign32 x) 0 := by
  rw [dec16_enc16, halfMag_toNat, if_pos h]
  rfl

theorem dec16_enc16_of_overflow {x : Word} (h : 143 ≤ bexp x) :
    dec16 (enc16 x) = pack32 (sign32 x) 0x47800000 := by
  have hmag : wordMag 0x7C00 = 0x47800000 := by decide
  rw [dec16_enc16, halfMag_toNat, if_neg (by omega), if_neg (by omega), hmag]

/-- In the normal range the 13 low bits are lost (R107). -/
theorem dec16_enc16_of_normal {x : Word} (hlo : 113 ≤ bexp x) (hhi : bexp x ≤ 142) :
    dec16 (enc16 x) = pack32 (sign32 x) (x.toNat % 2 ^ 31 / 2 ^ 13 * 2 ^ 13) := by
  have hf := frac_lt x
  have hmag : wordMag ((bexp x - 112) * 2 ^ 10 + frac x / 2 ^ 13) =
      x.toNat % 2 ^ 31 / 2 ^ 13 * 2 ^ 13 := by
    rw [low31_eq, wordMag, if_neg (by omega)]
    omega
  rw [dec16_enc16, halfMag_toNat, if_neg (by omega), if_pos hhi, hmag]

theorem dec16_enc16_of_low_bits_zero {x : Word} (hlo : 113 ≤ bexp x) (hhi : bexp x ≤ 142)
    (hlow : x.toNat % 2 ^ 13 = 0) : dec16 (enc16 x) = x := by
  have hmag : x.toNat % 2 ^ 31 / 2 ^ 13 * 2 ^ 13 = x.toNat % 2 ^ 31 := by omega
  rw [dec16_enc16_of_normal hlo hhi, hmag, pack32_eta]

theorem dec16_enc16_of_zero {x : Word} (h : isZero32 x = true) : dec16 (enc16 x) = x := by
  obtain ⟨hb, hf⟩ : bexp x = 0 ∧ frac x = 0 := by simpa [isZero32] using h
  have hmag : x.toNat % 2 ^ 31 = 0 := by rw [low31_eq, hb, hf, Nat.zero_mul]
  rw [dec16_enc16_of_underflow (by omega), ← hmag, pack32_eta]

theorem dec16_enc16_toNat_of_normal {x : Word} (hlo : 113 ≤ bexp x) (hhi : bexp x ≤ 142) :
    (dec16 (enc16 x)).toNat = x.toNat / 2 ^ 13 * 2 ^ 13 := by
  rw [dec16_enc16_of_normal hlo hhi, pack32_toNat _ (by omega), sign32_eq,
    ite_le_eq_div_mul x.isLt]
  omega

/-- Settles O29: (a) by the fields of the half, (b) and (c) by the class of the binary32 pattern. -/
theorem halfRoundTrips : Obligations.HalfRoundTrips := by
  refine ⟨fun h => ⟨fun h0 => ?_, fun h31 => ?_, fun h0 h31 => ?_⟩, fun x =>
    ⟨dec16_enc16_of_low_bits_zero, dec16_enc16_of_zero, dec16_enc16_toNat_of_normal,
      fun hb => dec16_enc16_of_underflow (Nat.le_of_lt_succ hb), dec16_enc16_of_overflow⟩⟩
  · rw [enc16_dec16_toNat, if_pos h0, Nat.add_zero]
  · rw [enc16_dec16_toNat, if_neg (by omega), if_pos h31]
  · rw [← BitVec.toNat_inj, enc16_dec16_toNat, if_neg h0, if_neg h31]
    omega

/-! ### What truncation loses -/

/-- In the normal range the round trip loses the 13 low bits of the fraction, at their worth. -/
theorem magUnits_dec16_enc16_add {x : Word} (hlo : 113 ≤ bexp x) (hhi : bexp x ≤ 142) :
    magUnits (dec16 (enc16 x)) + frac x % 2 ^ 13 * 2 ^ (bexp x - 1) = magUnits x := by
  have hf := frac_lt x
  rw [dec16_enc16_of_normal hlo hhi, magUnits_pack32 _ (by omega), magUnits, low31_eq]
  have hexp : (bexp x * 2 ^ 23 + frac x) / 2 ^ 13 * 2 ^ 13 / 2 ^ 23 = bexp x := by omega
  have hfrac : (bexp x * 2 ^ 23 + frac x) / 2 ^ 13 * 2 ^ 13 % 2 ^ 23 + frac x % 2 ^ 13 = frac x := by
    omega
  rw [hexp, if_neg (by omega), if_neg (by omega), ← Nat.add_mul, Nat.add_assoc, hfrac]

/-- Settles O30: the bits lost are worth less than 2^13 fraction steps, and the magnitude is at least
2^23 of them. -/
theorem halfTruncationErrorIsBounded : Obligations.HalfTruncationErrorIsBounded := by
  intro x hlo hhi
  have hsum := magUnits_dec16_enc16_add hlo hhi
  have hlost : frac x % 2 ^ 13 * 2 ^ (bexp x - 1) < 2 ^ 13 * 2 ^ (bexp x - 1) :=
    Nat.mul_lt_mul_of_pos_right (Nat.mod_lt _ (by decide)) (by positivity)
  have hulp : 2 ^ (bexp x + 12) = 2 ^ 13 * 2 ^ (bexp x - 1) := by
    rw [← Nat.pow_add]
    congr 1
    omega
  have hleast : 2 ^ 23 * 2 ^ (bexp x - 1) ≤ magUnits x := by
    rw [magUnits, if_neg (by omega)]
    exact Nat.mul_le_mul_right _ (Nat.le_add_right _ _)
  refine ⟨?_, by omega, by omega, by omega⟩
  rw [dec16_enc16_of_normal hlo hhi, sign32_pack32 _ (by omega)]

end Sys2Proof.Machine
end

section
/-! SUPPORT. The quantized-value codec: what its two commands answer on an allocated slot, where the
quotient of `quant` is finite, and what the product of `dequant` is for each class of scale (R121 to
R129). -/

namespace Sys2Proof.Machine

/-! ### What the two commands answer -/

/-- The int8 code `c`, sign-extended from its 8-bit pattern, is the 32-bit pattern of `c` (R11). -/
theorem sext8_bits8 {c : Int} (h : -128 ≤ c ∧ c ≤ 127) : sext8 (bits8 c) = BitVec.ofInt 32 c := by
  have hcode : c.bmod (2 ^ 32) = c := Int.bmod_eq_of_le (by omega) (by omega)
  apply BitVec.eq_of_toInt_eq
  change s32 (sext8 (bits8 c)) = _
  rw [s32_sext8, bits8_toInt h, BitVec.toInt_ofInt, hcode]

theorem exec_qnt {s : State} {t : Nat} {sl : Slot} (x : Word) (h : s.allocated t = some sl) :
    exec (.qnt t x) s = .next ((s.setDraws (quant x sl.scale (s32 sl.zp) s.draws).2).setEngine
      (.resp .ok (BitVec.ofInt 32 (quant x sl.scale (s32 sl.zp) s.draws).1))) := by
  rw [← sext8_bits8 (quant_range x sl.scale (s32 sl.zp) s.draws)]
  exact withSlot_allocated h

theorem exec_dqn {s : State} {t : Nat} {sl : Slot} (c : Int) (h : s.allocated t = some sl) :
    exec (.dqn t c) s = .next ((s.setDraws (dequant c sl.scale (s32 sl.zp) s.draws).2).setEngine
      (.resp .ok (dequant c sl.scale (s32 sl.zp) s.draws).1)) :=
  withSlot_allocated h

/-! ### The code of a quotient -/

/-- A finite quotient is truncated, moved by the zero-point and wrapped, with no draw (R121, R129). -/
theorem quant_of_finite {x v q : Word} (hq : divRounded x v = some q) (hfin : finite32 q) (z : Int)
    (k : Nat) : quant x v z k = (wrap8 (trunc32 q + z), k) := by
  simp [quant, fdiv32, hq, hfin]

/-- A quotient takes at most one draw for a NaN and one for the code (R12, R121). -/
theorem quant_draws (x v : Word) (z : Int) (k : Nat) :
    k ≤ (quant x v z k).2 ∧ (quant x v z k).2 ≤ k + 2 := by
  have hlo : k ≤ (fdiv32 x v k).2 := draws_le_settleNan _ k
  have hhi : (fdiv32 x v k).2 ≤ k + 1 := by
    rw [fdiv32, settleNan_draws]
    split <;> omega
  simp only [quant]
  split <;> dsimp only <;> omega

theorem dvd_wrap8_sub (n : Int) : (256 : Int) ∣ wrap8 n - n :=
  Int.ModEq.dvd (Int.bmod_emod (x := n) (m := 256)).symm

/-- A value below 1 in magnitude truncates to 0 (R126). -/
theorem trunc32_of_lt_one {q : Word} (h : magUnits q < 2 ^ 149) : trunc32 q = 0 := by
  rw [trunc32, Nat.div_eq_of_lt h]
  simp

/-- A quotient below 1 in magnitude leaves the zero-point alone to be wrapped (R126). -/
theorem quant_of_lt_one {x v q : Word} (hq : divRounded x v = some q) (hfin : finite32 q)
    (hlt : magUnits q < 2 ^ 149) (z : Int) (k : Nat) : quant x v z k = (wrap8 z, k) := by
  rw [quant_of_finite hq hfin, trunc32_of_lt_one hlt, Int.zero_add]

/-! ### Where the quotient is finite -/

theorem divRounded_inf_right {a b : Word} (ha : finite32 a) (hb : isInf32 b = true) :
    divRounded a b = some (pack32 (sign32 a != sign32 b) 0) := by
  simp [divRounded, ha, hb, isNaN32_of_isInf32 hb]

theorem isZero32_eq (x : Word) : isZero32 x = decide (magUnits x = 0) := by
  by_cases hb : bexp x = 0
  · simp [isZero32, magUnits, hb, beq_eq_decide]
  · simp [isZero32, magUnits, hb]

theorem finite32_of_isZero32 {x : Word} (h : isZero32 x = true) : finite32 x := by
  simp only [isZero32, Bool.and_eq_true, beq_iff_eq] at h
  omega

theorem not_finite32_infMag (sgn : Bool) : ¬finite32 (pack32 sgn infMag) := fun hfin =>
  absurd (isInf32_pack32_infMag sgn) (by simp [hfin])

/-- A magnitude rounded once is finite exactly below the overflow threshold. -/
theorem finite32_roundMag_iff (sgn : Bool) (num : Nat) {den : Nat} (hd : 0 < den) :
    finite32 (pack32 sgn (roundMag num den)) ↔ num < overflowUnits * den := by
  rw [← Nat.not_le, ← roundMag_eq_infMag_iff num hd]
  constructor
  · exact fun hfin heq => not_finite32_infMag sgn (heq ▸ hfin)
  · exact fun hne => finite32_pack32 sgn ((roundMag_le num den).lt_of_ne hne)

/-- A finite quotient is that of a finite value by an infinite scale, or by a finite one that is not
zero: every other branch answers a NaN or an infinity. -/
theorem operands_of_finite_quotient {a b q : Word} (h : divRounded a b = some q)
    (hfin : finite32 q) :
    finite32 a ∧ (isInf32 b = true ∨ (finite32 b ∧ isZero32 b = false)) := by
  have hsome : ¬divRounded a b = none := by simp [h]
  simp only [divRounded_eq_none_iff, not_or, Bool.not_eq_true] at hsome
  obtain ⟨hna, hnb, -, -⟩ := hsome
  have hfa := finite32_or_isInf32 hna
  have hfb := finite32_or_isInf32 hnb
  unfold divRounded at h
  dsimp only at h
  split_ifs at h with hnan hia hib hib hzb hza <;> simp only [Option.some.injEq] at h
  · exact absurd (h ▸ hfin) (not_finite32_infMag _)
  · exact ⟨hfa.resolve_right hia, .inl hib⟩
  · exact absurd (h ▸ hfin) (not_finite32_infMag _)
  · exact ⟨hfa.resolve_right hia, .inr ⟨hfb.resolve_right hib, Bool.eq_false_iff.mpr hzb⟩⟩

/-- A quotient of finite values is finite exactly where it does not overflow. -/
theorem finite32_quotient_iff {x v q : Word} (hx : finite32 x) (hv : finite32 v)
    (hz : isZero32 v = false) (hq : divRounded x v = some q) :
    finite32 q ↔ magUnits x * 2 ^ 149 < overflowUnits * magUnits v := by
  have hpos : 0 < magUnits v := by simpa [isZero32_eq, Nat.pos_iff_ne_zero] using hz
  rw [divRounded_of_finite hx hv hz, Option.some.injEq] at hq
  rw [← hq, finite32_roundMag_iff _ _ hpos]

theorem exists_finite_quotient_iff (x v : Word) :
    (∃ q, divRounded x v = some q ∧ finite32 q) ↔
      finite32 x ∧ isNaN32 v = false ∧ isZero32 v = false ∧
        (isInf32 v = true ∨ magUnits x * 2 ^ 149 < overflowUnits * magUnits v) := by
  constructor
  · rintro ⟨q, hq, hfin⟩
    obtain ⟨hx, hinf | ⟨hv, hz⟩⟩ := operands_of_finite_quotient hq hfin
    · exact ⟨hx, isNaN32_of_isInf32 hinf, isZero32_of_isInf32 hinf, .inl hinf⟩
    · exact ⟨hx, isNaN32_of_finite hv, hz, .inr ((finite32_quotient_iff hx hv hz hq).mp hfin)⟩
  · rintro ⟨hx, hnan, hz, hfits⟩
    obtain hv | hinf := finite32_or_isInf32 hnan
    · have hlt := hfits.resolve_left (by simp [hv])
      have hq := divRounded_of_finite hx hv hz
      exact ⟨_, hq, (finite32_quotient_iff hx hv hz hq).mpr hlt⟩
    · exact ⟨_, divRounded_inf_right hx hinf, finite32_pack32 _ (by decide)⟩

/-- A finite value by an infinite scale is a zero, which leaves the wrapped zero-point (R126). -/
theorem quant_of_inf {x v : Word} (hx : finite32 x) (hv : isInf32 v = true) (z : Int) (k : Nat) :
    quant x v z k = (wrap8 z, k) := by
  refine quant_of_lt_one (divRounded_inf_right hx hv) (finite32_pack32 _ (by decide)) ?_ z k
  cases sign32 x != sign32 v <;> decide

/-! ### The product of a code -/

/-- `c − z`, for an int8 code and a zero-point, stays far below the overflow (R123). -/
theorem natAbs_sub_zeroPoint_lt {c : Int} (hc : codeOk c = true) (zp : Word) :
    (c - s32 zp).natAbs < 2 ^ 33 := by
  have hcode := of_decide_eq_true hc
  have hlo := zp.le_toInt
  have hhi := zp.toInt_lt
  unfold s32
  omega

theorem finite32_i2f32 {n : Int} (h : n.natAbs < 2 ^ 33) : finite32 (i2f32 n) := by
  have hmax : 2 ^ 33 * 2 ^ 149 < overflowUnits := by norm_num [overflowUnits]
  rw [i2f32, finite32_roundMag_iff _ _ Nat.one_pos, Nat.mul_one]
  exact (Nat.mul_lt_mul_of_pos_right h (by positivity)).trans hmax

theorem sign32_i2f32 (n : Int) : sign32 (i2f32 n) = decide (n < 0) :=
  sign32_pack32 _ (roundMag_lt _ _)

/-- Only zero rounds to zero among whole numbers of units: 1 is nearer to any other. -/
theorem roundMag_one_eq_zero_iff {num : Nat} : roundMag num 1 = 0 ↔ num = 0 := by
  refine ⟨fun hzero => ?_, fun hnum => by rw [hnum, roundMag_zero]⟩
  have hnear := (roundMag_nearest (num := num) Nat.one_pos (by rw [hzero]; decide) 1).1
  rw [hzero, show gridMag 0 = 0 from rfl, show gridMag 1 = 1 from rfl] at hnear
  omega

/-- No integer but 0 converts to a zero (R123). -/
theorem isZero32_i2f32 (n : Int) : isZero32 (i2f32 n) = decide (n = 0) := by
  have hgrid := gridMag_strictMono.injective.eq_iff (a := roundMag (n.natAbs * 2 ^ 149) 1) (b := 0)
  have hunits : magUnits (i2f32 n) = 0 ↔ n = 0 := by
    rw [i2f32, magUnits_pack32_eq_gridMag _ (roundMag_lt _ _), show 0 = gridMag 0 from rfl, hgrid,
      roundMag_one_eq_zero_iff]
    omega
  simp only [isZero32_eq, hunits]

theorem magUnits_i2f32 {n : Int} (h : n.natAbs ≤ 2 ^ 24) :
    magUnits (i2f32 n) = n.natAbs * 2 ^ 149 := by
  rw [← natAbs_units, (smallIntegersConvertExactly n h).2.1, Int.natAbs_mul]
  rfl

/-- A product that is no NaN is answered by DQN with no draw. -/
theorem exec_dqn_of_product {s : State} {t : Nat} {c : Int} {sl : Slot} {w : Word}
    (h : s.allocated t = some sl)
    (hw : mulRounded (i2f32 (c - s32 sl.zp)) sl.scale = some w) :
    exec (.dqn t c) s = .next (s.setEngine (.resp .ok w)) := by
  rw [exec_dqn c h, dequant, fmul32, hw, settleNan_some, State.setDraws_draws_self]

/-- A product that is a NaN is answered by DQN with a draw of `P_NAN` (R12, R127). -/
theorem exec_dqn_of_nan {s : State} {t : Nat} {c : Int} {sl : Slot} (h : s.allocated t = some sl)
    (hnone : mulRounded (i2f32 (c - s32 sl.zp)) sl.scale = none) :
    exec (.dqn t c) s = .next ((s.setDraws (s.draws + 1)).setEngine
      (.resp .ok (nanPattern (Config.freeNan s.draws)))) := by
  rw [exec_dqn c h, dequant, fmul32, hnone, settleNan_none]

theorem exec_dqn_of_finite {s : State} {t : Nat} {c : Int} {sl : Slot}
    (h : s.allocated t = some sl) (hc : codeOk c = true) (hfin : finite32 sl.scale) :
    exec (.dqn t c) s = .next (s.setEngine (.resp .ok
      (pack32 (decide (c - s32 sl.zp < 0) != sign32 sl.scale)
        (roundMag (magUnits (i2f32 (c - s32 sl.zp)) * magUnits sl.scale) (2 ^ 149))))) := by
  rw [← sign32_i2f32]
  exact exec_dqn_of_product h
    (mulRounded_of_finite (finite32_i2f32 (natAbs_sub_zeroPoint_lt hc sl.zp)) hfin)

theorem exec_dqn_of_inf {s : State} {t : Nat} {c : Int} {sl : Slot}
    (h : s.allocated t = some sl) (hc : codeOk c = true) (hinf : isInf32 sl.scale = true)
    (hne : c ≠ s32 sl.zp) :
    exec (.dqn t c) s = .next (s.setEngine (.resp .ok
      (pack32 (decide (c - s32 sl.zp < 0) != sign32 sl.scale) infMag))) := by
  have hz : isZero32 (i2f32 (c - s32 sl.zp)) = false := by
    rw [isZero32_i2f32]
    exact decide_eq_false (by omega)
  rw [← sign32_i2f32]
  exact exec_dqn_of_product h
    (mulRounded_inf_right (finite32_i2f32 (natAbs_sub_zeroPoint_lt hc sl.zp)) hz hinf)

/-! ### The obligations -/

/-- Settles O36: a finite quotient goes through `wrap8`, which keeps the residue. -/
theorem qntRespondsTheWrappedCode : Obligations.QntRespondsTheWrappedCode := by
  intro s t x q sl h hq hfin
  obtain ⟨hlo, hhi⟩ := wrap8_range (trunc32 q + s32 sl.zp)
  refine ⟨wrap8 (trunc32 q + s32 sl.zp), hlo, hhi, dvd_wrap8_sub _, ?_⟩
  rw [exec_qnt x h, quant_of_finite hq hfin, State.setDraws_draws_self]

/-- Settles O37: `quant` answers an int8 code on every branch. -/
theorem qntAlwaysRespondsACode : Obligations.QntAlwaysRespondsACode := by
  intro s t x sl h
  obtain ⟨hlo, hhi⟩ := quant_range x sl.scale (s32 sl.zp) s.draws
  obtain ⟨hle, hmost⟩ := quant_draws x sl.scale (s32 sl.zp) s.draws
  exact ⟨_, _, hlo, hhi, hle, hmost, exec_qnt x h⟩

/-- Settles O38: only two branches of the division end finite, and a quotient by an infinite scale is a
zero, so below 1. -/
theorem quantCornerCases : Obligations.QuantCornerCases :=
  fun x v => ⟨exists_finite_quotient_iff x v, fun z k =>
    ⟨fun hx hv => quant_of_inf hx hv z k, fun _ hq hfin hlt => quant_of_lt_one hq hfin hlt z k⟩⟩

/-- Settles O39: the converted `c − z` is finite, and exact up to 2^24, where one factor of 2^149
cancels. -/
theorem dqnRespondsTheRoundedProduct : Obligations.DqnRespondsTheRoundedProduct := by
  intro s t c sl h hc hfin
  refine ⟨exec_dqn_of_finite h hc hfin, fun hsmall => ?_⟩
  have hcancel := roundMag_mul_mul ((c - s32 sl.zp).natAbs * magUnits sl.scale) 1
    (k := 2 ^ 149) (by positivity)
  rwa [Nat.one_mul, Nat.mul_right_comm, ← magUnits_i2f32 hsmall] at hcancel

/-- Settles O40: a zero scale is a finite one of no units, and an infinite scale gives a NaN only against
a converted zero, which is `c = z`. -/
theorem dqnCornerCases : Obligations.DqnCornerCases := by
  refine ⟨fun s t c sl h hc => ⟨fun hzero => ?_, exec_dqn_of_inf h hc, fun hnan => ?_⟩, by decide⟩
  · have hunits : magUnits sl.scale = 0 := by simpa [isZero32_eq] using hzero
    have hexec := exec_dqn_of_finite h hc (finite32_of_isZero32 hzero)
    rwa [hunits, Nat.mul_zero, roundMag_zero] at hexec
  · refine ⟨_, isNaN32_nanPattern _, exec_dqn_of_nan h (mulRounded_eq_none_iff.mpr ?_)⟩
    obtain ⟨hinf, heq⟩ | hnan := hnan
    · refine .inr (.inr (.inr ⟨?_, hinf⟩))
      rw [isZero32_i2f32]
      exact decide_eq_true (by omega)
    · exact .inr (.inl hnan)

end Sys2Proof.Machine
end

section
/-! SUPPORT. The commands of the tensor container on a slot that is there, and on one that is not:
CREATE's errors, the end of a tensor's life, and SET and GET of an element in range and out of it (R141
to R153). -/

namespace Sys2Proof.Machine

/-! ### The zero fill -/

/-- Bytes written with 0 read as 0. -/
theorem Memory.readByte_writeBytes_zero_inside {m : Memory} (hm : m.wf) {a n b : Nat} (hab : a ≤ b)
    (hb : b < a + n) : (m.writeBytes a n 0).readByte b = Memory.fill := by
  induction n generalizing m a with
  | zero => omega
  | succ n ih =>
    rw [Memory.writeBytes, Nat.zero_div]
    obtain rfl | hlt := Nat.eq_or_lt_of_le hab
    · rw [Memory.readByte_writeBytes_outside _ _ (by omega), Memory.readByte_writeByte_same hm]
      rfl
    · exact ih (Memory.wf_writeByte hm _ _) hlt (by omega)

theorem zeroFill_zero (m : Memory) (w : Nat) : zeroFill m 0 w = m :=
  List.filter_eq_self.mpr fun c _ => by simp [inElements]

/-- The elements `0 .. n` are the elements `0 .. n − 1` and the bytes of element `n`. -/
theorem inElements_succ {w : Nat} (hw : w ≤ 4) (n a : Nat) :
    inElements (n + 1) w a = true ↔
      inElements n w a = true ∨ (cellAddr n ≤ a ∧ a < cellAddr n + w) := by
  simp only [inElements, decide_eq_true_eq, cellAddr]
  omega

/-- Filling one more element is one more write of the zero pattern, on canonical storage. -/
theorem zeroFill_succ {m : Memory} (hm : m.wf) (n : Nat) {w : Nat} (hw : w ≤ 4) :
    zeroFill m (n + 1) w = memWrite (zeroFill m n w) n w 0 := by
  have hfill := wf_zeroFill hm n w
  refine Memory.ext_of_wf (wf_zeroFill hm _ _) (wf_memWrite hfill _ _ _) fun a => ?_
  by_cases ha : cellAddr n ≤ a ∧ a < cellAddr n + w
  · rw [readByte_zeroFill, if_pos ((inElements_succ hw n a).mpr (.inr ha)), memWrite,
      Memory.readByte_writeBytes_zero_inside hfill ha.1 ha.2]
  · have hsame : inElements (n + 1) w a = inElements n w a :=
      Bool.eq_iff_iff.mpr ((inElements_succ hw n a).trans (or_iff_left ha))
    rw [memWrite, Memory.readByte_writeBytes_outside _ _ (by omega), readByte_zeroFill,
      readByte_zeroFill, hsame]

/-- Settles O43, by induction on the number of elements. -/
theorem zeroFillIsTheWriteLoop : Obligations.ZeroFillIsTheWriteLoop := by
  intro m n rep hm
  induction n with
  | zero => exact zeroFill_zero m _
  | succ n ih =>
    rw [List.range_succ, List.foldl_append, ← ih]
    exact zeroFill_succ hm n (repWidth_le rep)

/-! ### A slot that is not there -/

/-- A slot check whose continuation can only end with `ERR_SLOT` ends with it itself. -/
theorem withSlot_errSlot {u : Nat} {s : State} {f : Slot → Result}
    (h : ∀ sl, f sl = .next (s.setEngine (.resp .errSlot 0))) :
    withSlot u s f = .next (s.setEngine (.resp .errSlot 0)) := by
  cases hs : s.allocated u with
  | none => exact withSlot_unallocated hs
  | some sl => exact (withSlot_allocated hs).trans (h sl)

/-- Every instruction but CREATE that names a slot which is not allocated, or does not exist, ends with
`ERR_SLOT` (R152, R202). -/
theorem exec_of_unallocated {i : Instr} {s : State} {t : Nat} (hi : needsAllocated i = true)
    (ht : t ∈ namedSlots i) (h : s.allocated t = none) :
    exec i s = .next (s.setEngine (.resp .errSlot 0)) := by
  cases i with
  | f2h _ | h2f _ => cases ht
  | create _ _ _ => cases hi
  | qnt _ _ | dqn _ _ | destroy _ | set _ _ _ | get _ _ | wscale _ _ | rscale _ | wzp _ _ | rzp _ =>
    obtain rfl := List.mem_singleton.mp ht
    exact withSlot_unallocated h
  | dense tw tx tbias =>
    obtain rfl | rfl | rfl : t = tw ∨ t = tx ∨ t = tbias := by simpa [namedSlots] using ht
    · exact withSlot_unallocated h
    · exact withSlot_errSlot fun _ => withSlot_unallocated h
    · exact withSlot_errSlot fun _ => withSlot_errSlot fun _ => withSlot_unallocated h

theorem State.allocated_eq_none_of_invalid {s : State} {t : Nat} {sl : Slot}
    (hsl : s.slots[t]? = some sl) (hv : sl.valid = false) : s.allocated t = none := by
  simp [State.allocated, hsl, hv]

theorem exec_destroy {s : State} {t : Nat} {sl : Slot} (h : s.allocated t = some sl) :
    exec (.destroy t) s =
      .next ((s.setSlot t { sl with valid := false }).setEngine (.resp .ok 0)) := withSlot_allocated h

/-- Settles O44: the slot left is not allocated, so every later slot check on it fails. -/
theorem destroyEndsEveryLaterUse : Obligations.DestroyEndsEveryLaterUse := by
  refine fun s t sl h => ⟨_, exec_destroy h, rfl, fun i hi ht => exec_of_unallocated hi ht ?_⟩
  exact State.allocated_eq_none_of_invalid (List.getElem?_set_self (State.lt_of_allocated h)) rfl

/-! ### CREATE's errors -/

/-- Settles O41: one branch of CREATE's rule for each error. -/
theorem createErrorsInOrder : Obligations.CreateErrorsInOrder := by
  refine fun s t rep n => ⟨fun ht => ?_, fun sl hsl => ⟨fun hv => ?_, fun hv hn => ?_⟩⟩
  · simp [exec, execCreate, List.getElem?_eq_none ht]
  · simp [exec, execCreate, hsl, hv]
  · simp [exec, execCreate, hsl, hv, hn]

/-! ### SET -/

theorem exec_set {s : State} {t : Nat} {sl : Slot} (i : Nat) (x : Word) (h : s.allocated t = some sl) :
    exec (.set t i x) s = .next (((s.setSlot t (setval sl i x s.draws).1).setDraws
      (setval sl i x s.draws).2).setEngine (.resp .ok 0)) := withSlot_allocated h

/-- A stored pattern reads back whole, since it fits the element's width. -/
theorem memRead_memWrite_storedPattern {sl : Slot} (hwf : sl.stor.wf) (i : Nat) (x : Word) (k : Nat) :
    memRead (memWrite sl.stor i (repWidth sl.rep) (storedPattern sl x k).1) i (repWidth sl.rep) =
      (storedPattern sl x k).1 := by
  rw [memRead_memWrite_same hwf, Nat.mod_eq_of_lt (storedPattern_lt sl x k)]

/-- Settles O45: a write in range stores the pattern of the slot's representation, which reads back. -/
theorem setStoresTheElement : Obligations.SetStoresTheElement := by
  intro s t i x sl h hwf hi
  have hset := exec_set i x h
  rw [setval_in hi] at hset
  have hread := memRead_memWrite_storedPattern hwf i x s.draws
  refine ⟨_, _, hset, fun hr => ?_, fun hr => ?_, fun hr => ?_,
    fun a => Memory.readByte_writeBytes_outside sl.stor _⟩
  all_goals
    rw [hr] at hread ⊢
    simpa [storedPattern, repWidth, hr] using hread

/-! ### GET -/

theorem exec_get {s : State} {t : Nat} {sl : Slot} (i : Nat) (h : s.allocated t = some sl) :
    exec (.get t i) s = .next ((s.setDraws (getval sl i s.draws).2).setEngine
      (.resp .ok (getval sl i s.draws).1)) := withSlot_allocated h

/-- An 8-bit pattern as a signed integer (R11). -/
theorem s32_sext8_ofNat {p : Nat} (h : p < 256) :
    s32 (sext8 (BitVec.ofNat 8 p)) = if p < 128 then (p : Int) else (p : Int) - 256 := by
  rw [s32_sext8, BitVec.toInt_eq_toNat_cond, BitVec.toNat_ofNat, Nat.mod_eq_of_lt h]
  split <;> split <;> omega

/-- Settles O47: a read in range decodes the pattern held, as the slot's representation says. -/
theorem getRespondsTheDecodedElement : Obligations.GetRespondsTheDecodedElement := by
  intro s t i sl h hi
  rw [exec_get i h, getval_in hi]
  refine ⟨fun hr => ?_, fun hr => ?_, fun hr c hc => ?_⟩ <;> rw [hr]
  · rfl
  · rfl
  · rw [hc, ← s32_sext8_ofNat (memRead_lt sl.stor i 1)]
    rfl

/-! ### GET after SET -/

/-- A read of the element just written decodes the pattern that the write stored. -/
theorem getval_setval_same {sl : Slot} (hwf : sl.stor.wf) {i : Nat} (hi : i < u32 sl.length) (x : Word)
    (j k : Nat) : getval (setval sl i x j).1 i k =
      decodedPattern sl.rep sl.scale sl.zp (storedPattern sl x j).1 k := by
  have hi' : i < u32 (setval sl i x j).1.length := by rwa [setval_length]
  rw [getval_in hi', setval_in hi]
  simp only [memRead_memWrite_storedPattern hwf]

/-- What a stored pattern decodes to: a code survives its 8 bits, since every code is an int8 code
(R143). -/
theorem decodedPattern_storedPattern (sl : Slot) (x : Word) (j k : Nat) :
    (sl.rep = .f32 →
      decodedPattern sl.rep sl.scale sl.zp (storedPattern sl x j).1 k = (x, k)) ∧
    (sl.rep = .f16 →
      decodedPattern sl.rep sl.scale sl.zp (storedPattern sl x j).1 k = (dec16 (enc16 x), k)) ∧
    (sl.rep = .i8 →
      decodedPattern sl.rep sl.scale sl.zp (storedPattern sl x j).1 k =
        dequant (quant x sl.scale (s32 sl.zp) j).1 sl.scale (s32 sl.zp) k) := by
  have hcode := bits8_toInt (quant_range x sl.scale (s32 sl.zp) j)
  refine ⟨fun hr => ?_, fun hr => ?_, fun hr => ?_⟩
  · simp [decodedPattern, storedPattern, hr]
  · simp [decodedPattern, storedPattern, hr]
  · simp [decodedPattern, storedPattern, hr, hcode]

/-- Settles O48: GET decodes the pattern that SET stored, at the draw counter that SET left. -/
theorem getAfterSet : Obligations.GetAfterSet := by
  intro s t i x sl h hwf hi
  have hvalid : (setval sl i x s.draws).1.valid = true :=
    (setval_valid sl i x s.draws).trans (State.allocated_eq_some.mp h).2
  have hlt := State.lt_of_allocated h
  refine ⟨_, _, _, exec_set i x h, exec_get i (State.allocated_setSlot_same hlt hvalid), rfl, rfl,
    ?_⟩
  obtain ⟨h32, h16, h8⟩ := decodedPattern_storedPattern sl x s.draws (setval sl i x s.draws).2
  rw [← getval_setval_same hwf hi] at h32 h16 h8
  refine ⟨fun hr => congrArg Prod.fst (h32 hr), fun hr => congrArg Prod.fst (h16 hr), fun hr => ?_⟩
  have hdraws : (setval sl i x s.draws).2 = (quant x sl.scale (s32 sl.zp) s.draws).2 := by
    simp [setval_in hi, storedPattern, hr]
  rw [← hdraws]
  exact congrArg Prod.fst (h8 hr)

/-! ### An index out of range -/

theorem State.setSlot_self {s : State} {t : Nat} {sl : Slot} (h : s.slots[t]? = some sl) :
    s.setSlot t sl = s := by
  obtain ⟨ht, rfl⟩ := List.getElem?_eq_some_iff.mp h
  rw [State.setSlot, List.set_getElem_self]

/-- Settles O46: neither read nor write does anything out of range. -/
theorem outOfRangeIndexIsSilent : Obligations.OutOfRangeIndexIsSilent := by
  intro s t i x sl h hi
  refine ⟨?_, ?_, getval_out hi⟩
  · rw [exec_set i x h, setval_out hi,
      State.setSlot_self (State.allocated_eq_some.mp h).1, State.setDraws_draws_self]
  · rw [exec_get i h, getval_out hi, State.setDraws_draws_self]

end Sys2Proof.Machine
end

section
/-! SUPPORT. The dense-forward pipeline: DENSE's sum as a fold, the values it takes on an empty input, on
products that are all −0.0 and on operands past the end of their slots (R170 to R175), and rounding under
a factor of two (R176). -/

namespace Sys2Proof.Machine

/-! ### Rounding under a factor of two -/

/-- Doubling a ratio of at least 1 lengthens its whole part by one bit. -/
theorem log2_two_mul_div {num den : Nat} (h : 0 < num / den) :
    (2 * num / den).log2 = (num / den).log2 + 1 := by
  have hhalf : 2 * num / den / 2 = num / den := by
    rw [Nat.div_div_eq_div_mul, Nat.mul_comm den, Nat.mul_div_mul_left _ _ Nat.two_pos]
  rw [Nat.log2_def, if_pos (by omega), hhalf]

/-- Settles O35: twice the value in the normal range has a fraction step worth twice as much, so the count
of steps is rounded from the same ratio. -/
theorem doublingCommutesWithRounding : Obligations.DoublingCommutesWithRounding := by
  intro num den hd hnormal hfin
  have hwhole : 2 ^ 23 ≤ num / den := (Nat.le_div_iff_mul_le hd).mpr hnormal
  have hlog : 23 ≤ (num / den).log2 := (Nat.le_log2 (by omega)).mpr hwhole
  have hshift : (2 * num / den).log2 - 23 = (num / den).log2 - 23 + 1 := by
    rw [log2_two_mul_div (by omega)]
    omega
  have hcount (shift : Nat) :
      roundDiv (2 * num) (den * 2 ^ (shift + 1)) = roundDiv num (den * 2 ^ shift) := by
    rw [Nat.mul_comm 2, Nat.pow_succ, ← Nat.mul_assoc, roundDiv_mul_mul _ _ Nat.two_pos]
  simp only [roundMag, hshift, hcount] at hfin ⊢
  omega

/-! ### What DENSE answers -/

theorem exec_dense {s : State} {tw tx tb : Nat} {w x b : Slot} (hw : s.allocated tw = some w)
    (hx : s.allocated tx = some x) (hb : s.allocated tb = some b) :
    exec (.dense tw tx tb) s = .next ((s.setDraws (dense w x b s.draws).2).setEngine
      (.resp .ok (dense w x b s.draws).1)) :=
  (withSlot_allocated hw).trans ((withSlot_allocated hx).trans (withSlot_allocated hb))

/-- The running sum takes the indices in ascending order (R170). -/
theorem denseSum_eq_foldl (w x : Slot) (k n : Nat) :
    denseSum w x k n = (List.range n).foldl (fun (acc : Word × Nat) i =>
      fadd32 acc.1
        (fmul32 (getval w i acc.2).1 (getval x i (getval w i acc.2).2).1
          (getval x i (getval w i acc.2).2).2).1
        (fmul32 (getval w i acc.2).1 (getval x i (getval w i acc.2).2).1
          (getval x i (getval w i acc.2).2).2).2) (0, k) := by
  induction n with
  | zero => rfl
  | succ n ih => rw [List.range_succ, List.foldl_append, ← ih]; rfl

/-- Settles O52: the model's recursion on the number of elements is the fold over their indices. -/
theorem denseRespondsTheAscendingSum : Obligations.DenseRespondsTheAscendingSum := by
  intro s tw tx tb w x b hw hx hb
  refine ⟨denseSum w x s.draws (u32 x.length), dense w x b s.draws, ?_, rfl, exec_dense hw hx hb⟩
  exact denseSum_eq_foldl w x s.draws (u32 x.length)

/-! ### Zero sums -/

/-- Adding to +0.0 a value that is no NaN gives it back with no draw, −0.0 becoming +0.0 (R175). -/
theorem fadd32_zero_left {a : Word} (ha : isNaN32 a = false) (k : Nat) :
    fadd32 0 a k = (if a = 0x80000000 then 0 else a, k) := by
  rw [fadd32, addRounded_zero_left ha, settleNan_some]

/-- Settles O53: the sum over no elements is +0.0, to which the bias is added. -/
theorem denseOfEmptyInputIsTheBias : Obligations.DenseOfEmptyInputIsTheBias := by
  intro s tw tx tb w x b hw hx hb hlen hnan
  have hdense : dense w x b s.draws =
      (if (getval b 0 s.draws).1 = 0x80000000 then 0 else (getval b 0 s.draws).1,
        (getval b 0 s.draws).2) := by
    rw [dense, hlen]
    exact fadd32_zero_left hnan _
  rw [exec_dense hw hx hb, hdense]

/-- Settles O54, by induction on the number of elements: +0.0 and −0.0 add up to +0.0. -/
theorem negativeZeroProductsSumToZero : Obligations.NegativeZeroProductsSumToZero := by
  intro w x k n h
  induction n with
  | zero => rfl
  | succ n ih =>
    obtain ⟨wv, xv, hwv, hxv, hprod⟩ := h n n.lt_succ_self
    have hacc : denseSum w x k n = (0, k) := ih fun i hi => h i (hi.trans n.lt_succ_self)
    simp only [denseSum, hacc, hwv, hxv, fmul32, hprod, settleNan_some]
    exact fadd32_zero_left rfl k

/-! ### Slots of other lengths than the input's -/

/-- The product of +0.0 and a finite value is a zero of that value's sign, and there is none for an
infinity or a NaN (R173). -/
theorem mulRounded_zero_left (a : Word) :
    mulRounded 0 a = if bexp a = 255 then none else some (pack32 (sign32 a) 0) := by
  have h0 : finite32 0 := by decide
  split
  case isTrue hb =>
    refine mulRounded_eq_none_iff.mpr (.inr ?_)
    cases hnan : isNaN32 a
    · have hinf := (finite32_or_isInf32 hnan).resolve_left (not_not_intro hb)
      exact .inr (.inr ⟨rfl, hinf⟩)
    · exact .inl rfl
  case isFalse hb =>
    rw [mulRounded_of_finite h0 hb, show magUnits 0 = 0 from rfl, Nat.zero_mul, roundMag_zero,
      show sign32 0 = false from rfl, Bool.false_bne]

/-- The sum over `n` elements reads no weight at index `n` or past it. -/
theorem denseSum_congr_weights {w w' x : Slot} {n : Nat}
    (h : ∀ i, i < n → ∀ j, getval w i j = getval w' i j) (k : Nat) :
    denseSum w x k n = denseSum w' x k n := by
  induction n with
  | zero => rfl
  | succ n ih =>
    have hacc := ih fun i hi => h i (hi.trans n.lt_succ_self)
    simp only [denseSum, hacc, h n n.lt_succ_self]

/-- Settles O55: a read out of range is +0.0, and the input's length bounds the indices of the sum. -/
theorem denseLengthMismatch : Obligations.DenseLengthMismatch := by
  refine ⟨fun w i k xv hi => ?_, fun w w' x b k h => ?_⟩
  · rw [getval_out hi]
    exact ⟨rfl, mulRounded_zero_left xv⟩
  · simp only [dense, denseSum_congr_weights h]

end Sys2Proof.Machine
end

section
/-! SUPPORT. Errors and faults (R200 to R211): which commands are illegal, what an error leaves behind,
and that no step stops the machine. -/

namespace Sys2Proof.Machine

/-! ### Which commands are illegal (R205) -/

/-- Where the opcode is defined, `usesOf` gives R64's row for it. -/
theorem exists_usesOf_iff {op : BitVec 8} :
    (∃ u, usesOf op = some u) ↔ op.toNat ∈ definedOpcodes := by
  constructor
  · rintro ⟨u, hu⟩
    by_contra h
    cases (usesOf_of_reserved h).symm.trans hu
  · intro h
    simp only [definedOpcodes, List.mem_cons, List.not_mem_nil, or_false] at h
    rcases h with h | h | h | h | h | h | h | h | h | h | h | h | h <;> simp [usesOf, h]

/-- R63 row by row is the check of the fields that the opcode does not use. -/
theorem unusedNonzero_iff {c : Command} {u : Uses} (hu : usesOf c.op = some u) :
    unusedNonzero c ↔ c.unusedZero u ≠ true := by
  rw [ne_eq, unusedZero_iff]
  unfold usesOf at hu
  split at hu
  case h_14 => cases hu
  all_goals
    cases hu
    simp [unusedNonzero, ‹c.op.toNat = _›, -not_and, not_and_or]

theorem extract_upperHalf_eq_zero_iff (w : Word) :
    w.extractLsb' 16 16 = 0 ↔ w.toNat / 2 ^ 16 = 0 := by
  have hlt := w.isLt
  rw [extractLsb'_eq_iff]
  change w.toNat / 2 ^ 16 % 2 ^ 16 = 0 ↔ _
  omega

/-- The value checks fail exactly in R205's three ways. -/
theorem not_valueOk_iff {c : Command} :
    ¬c.ValueOk ↔ (c.op.toNat = 0x10 ∧ c.rep = 3) ∨ (c.op.toNat = 0x02 ∧ c.b.toNat / 2 ^ 16 ≠ 0) ∨
      (c.op.toNat = 0x04 ∧ ¬(-128 ≤ s32 c.b ∧ s32 c.b ≤ 127)) := by
  have hop (n : BitVec 8) : c.op = n ↔ c.op.toNat = n.toNat := BitVec.toNat_inj.symm
  simp only [Command.ValueOk, extract_upperHalf_eq_zero_iff, hop, BitVec.reduceToNat, s32]
  tauto

/-- A command of a defined opcode fails to decode by one of the three checks that follow (R67). -/
theorem not_exists_decode_iff {c : Command} {u : Uses} (hu : usesOf c.op = some u) :
    (¬∃ i, decode c = .ok i) ↔ c.res ≠ 0 ∨ c.unusedZero u ≠ true ∨ ¬c.ValueOk := by
  simp only [exists_decode_iff, hu, Option.some.injEq, exists_eq_left', not_and_or, ne_eq]

theorem exists_error_iff {ε α : Type} (r : Except ε α) :
    (∃ e, r = .error e) ↔ ¬∃ a, r = .ok a := by
  cases r <;> simp

/-- Settles O4: a reserved opcode is refused first, and for any other the checks of the decoder are the
causes of R205. -/
theorem exactlyIllegalCommandsEndIllegal : Obligations.ExactlyIllegalCommandsEndIllegal := by
  refine fun c => ⟨?_, fun ⟨e, he⟩ s => runCommand_of_error he s⟩
  by_cases hop : c.op.toNat ∈ definedOpcodes
  · obtain ⟨u, hu⟩ := exists_usesOf_iff.mpr hop
    rw [exists_error_iff, not_exists_decode_iff hu, ← unusedNonzero_iff hu, not_valueOk_iff]
    simp only [hop, not_true_eq_false, false_or]
  · exact iff_of_true ⟨_, decode_of_reserved hop⟩ (.inl hop)

/-! ### What a command that ends with an error leaves (R208) -/

/-- A result is an error raised on the state as it was before the command, or completes. -/
def RaisesOrCompletes (s : State) (r : Result) : Prop :=
  (∃ e, r = raise e s) ∨ ∃ v t, r = respond v t

theorem raisesOrCompletes_raise (e : Status) (s : State) : RaisesOrCompletes s (raise e s) :=
  .inl ⟨e, rfl⟩

theorem raisesOrCompletes_respond (v : Word) (s t : State) : RaisesOrCompletes s (respond v t) :=
  .inr ⟨v, t, rfl⟩

/-- The slot check raises its error before anything is read or written (R152). -/
theorem raisesOrCompletes_withSlot {t : Nat} {s : State} {f : Slot → Result}
    (h : ∀ sl, RaisesOrCompletes s (f sl)) : RaisesOrCompletes s (withSlot t s f) := by
  unfold withSlot
  split
  · exact h _
  · exact raisesOrCompletes_raise _ _

theorem execCreate_raisesOrCompletes (t : Nat) (rep : Rep) (n : Nat) (s : State) :
    RaisesOrCompletes s (execCreate t rep n s) := by
  unfold execCreate
  split
  · exact raisesOrCompletes_raise _ _
  · split
    · exact raisesOrCompletes_raise _ _
    · split
      · exact raisesOrCompletes_raise _ _
      · exact raisesOrCompletes_respond _ _ _

theorem exec_raisesOrCompletes (i : Instr) (s : State) : RaisesOrCompletes s (exec i s) := by
  cases i with
  | f2h _ | h2f _ => exact raisesOrCompletes_respond _ _ _
  | create t rep n => exact execCreate_raisesOrCompletes t rep n s
  | qnt _ _ | dqn _ _ | destroy _ | set _ _ _ | get _ _ | wscale _ _ | rscale _ | wzp _ _ | rzp _ =>
    exact raisesOrCompletes_withSlot fun _ => raisesOrCompletes_respond _ _ _
  | dense _ _ _ =>
    exact raisesOrCompletes_withSlot fun _ => raisesOrCompletes_withSlot fun _ =>
      raisesOrCompletes_withSlot fun _ => raisesOrCompletes_respond _ _ _

theorem runCommand_raisesOrCompletes (c : Command) (s : State) :
    RaisesOrCompletes s (runCommand c s) := by
  unfold runCommand
  split
  · exact exec_raisesOrCompletes _ s
  · exact raisesOrCompletes_raise _ s

/-- Settles O22: a command that does not complete raises its error on the state it found. -/
theorem errorsChangeNothing : Obligations.ErrorsChangeNothing := by
  intro c s t e d h he hne
  obtain ⟨e', hr⟩ | ⟨v, u, hr⟩ := runCommand_raisesOrCompletes c s
  · cases hr.symm.trans h
    cases he
    exact ⟨rfl, rfl⟩
  · cases hr.symm.trans h
    cases he
    exact absurd rfl hne

/-! ### A missing slot (R202) -/

theorem State.allocated_eq_none_of_le {s : State} {t : Nat} (h : s.numSlots ≤ t) :
    s.allocated t = none := by
  simp only [State.allocated, List.getElem?_eq_none h]

theorem exec_create_of_le {s : State} {t : Nat} (rep : Rep) (n : Nat) (h : s.numSlots ≤ t) :
    exec (.create t rep n) s = .next (s.setEngine (.resp .errSlot 0)) :=
  (createErrorsInOrder s t rep n).1 h

/-- Settles O24: for CREATE by its own check, for every other command by the slot check, since a slot
that does not exist is not allocated. -/
theorem missingSlotEndsWithErrSlot : Obligations.MissingSlotEndsWithErrSlot := by
  rintro i s t ht (hle | ⟨hi, hnone⟩)
  · cases hi : needsAllocated i with
    | true => exact exec_of_unallocated hi ht (State.allocated_eq_none_of_le hle)
    | false =>
      cases i with
      | create u rep n =>
        obtain rfl := List.mem_singleton.mp ht
        exact exec_create_of_le rep n hle
      | _ => cases hi
  · exact exec_of_unallocated hi ht hnone

/-! ### The step -/

/-- A busy engine at its last cycle, reset low, applies its command's rule (R242). -/
theorem step_of_busy_last {s : State} {c : Command} (he : s.engine = .busy c 0)
    (hrst : s.portIn.rst = false) : step s = runCommand c s.sampled := by
  simp [step, edge, he, hrst]

/-- Settles O8: the rule of a command that does not decode is to end with `ERR_ILLEGAL`. -/
theorem undecodableCommandEndsIllegal : Obligations.UndecodableCommandEndsIllegal :=
  fun s _ _ he hrst hc => (step_of_busy_last he hrst).trans (runCommand_of_error hc s.sampled)

/-- Settles O15: of what a step can be, only the rule of a command could stop the machine, and it ends in
a response. -/
theorem everyStepAnswersNext : Obligations.EveryStepAnswersNext := by
  intro s
  obtain ⟨-, hr⟩ | ⟨-, ⟨-, -, hr⟩ | ⟨-, -, hr⟩ | ⟨c, n, -, hr⟩ | ⟨c, -, hr⟩ |
    ⟨st, d, -, ⟨-, hr⟩ | ⟨-, hr⟩⟩⟩ := step_cases s
  case inr.inr.inr.inr.inl =>
    obtain ⟨slots, k, st, d, -, hc⟩ := runCommand_endsInResponse c s.sampled
    exact ⟨_, hr.trans hc⟩
  all_goals exact ⟨_, hr⟩

end Sys2Proof.Machine
end

section
/-! SUPPORT. The clock edge (R230, R241, R242, R251): which edge happens, what reset leaves, and that an
accepted command gets its response. -/

namespace Sys2Proof.Machine

/-! ### The output ports -/

theorem State.cmdReady_iff {s : State} :
    s.cmdReady = true ↔ s.engine = .idle ∧ s.rstHeld = false := by
  cases he : s.engine <;> simp [State.cmdReady, he]

theorem State.rspValid_iff {s : State} : s.rspValid = true ↔ ∃ st d, s.engine = .resp st d := by
  cases he : s.engine <;> simp [State.rspValid, he]

/-- What an edge samples does not show at the response ports, which follow the engine (R240). -/
@[simp] theorem State.sampled_rspPort (s : State) : s.sampled.rspPort = s.rspPort := rfl

@[simp] theorem State.sampled_rspValid (s : State) : s.sampled.rspValid = s.rspValid := rfl

/-! ### Which edge happens -/

theorem step_of_rst {s : State} (hrst : s.portIn.rst = true) :
    step s = .next (resetEdge s.sampled) := by
  simp [step, edge, hrst]

/-- An offered command is accepted where `cmd_ready` is 1 (R241). -/
theorem step_of_accepted {s : State} (hrst : s.portIn.rst = false) (hready : s.cmdReady = true)
    (hvalid : s.portIn.cmdValid = true) : step s = .next (accept s.portIn.cmd s.sampled) := by
  have he := (State.cmdReady_iff.mp hready).1
  simp [step, edge, hrst, he, hready, hvalid]

theorem step_of_not_accepted {s : State} (hrst : s.portIn.rst = false) (he : s.engine = .idle)
    (h : s.cmdReady = false ∨ s.portIn.cmdValid = false) : step s = .next s.sampled := by
  have hno : (s.cmdReady && s.portIn.cmdValid) = false := Bool.and_eq_false_iff.mpr h
  simp [step, edge, hrst, he, hno]

/-- Before its last cycle a busy engine only counts (R242). -/
theorem step_of_busy {s : State} {c : Command} {n : Nat} (he : s.engine = .busy c (n + 1))
    (hrst : s.portIn.rst = false) : step s = .next (s.sampled.setEngine (.busy c n)) := by
  simp [step, edge, hrst, he]

theorem step_of_delivered {s : State} (hrst : s.portIn.rst = false) (hvalid : s.rspValid = true)
    (hready : s.portIn.rspReady = true) : step s = .next (s.sampled.setEngine .idle) := by
  obtain ⟨st, d, he⟩ := State.rspValid_iff.mp hvalid
  simp [step, edge, hrst, he, hready]

theorem step_of_held {s : State} (hrst : s.portIn.rst = false) (hvalid : s.rspValid = true)
    (hready : s.portIn.rspReady = false) : step s = .next s.sampled := by
  obtain ⟨st, d, he⟩ := State.rspValid_iff.mp hvalid
  simp [step, edge, hrst, he, hready]

/-- Settles O10, by the edge that each of the four handshake states takes. -/
theorem transfersFollowTheHandshake : Obligations.TransfersFollowTheHandshake :=
  fun _ hrst =>
    ⟨fun hready hvalid => ⟨_, step_of_accepted hrst hready hvalid⟩,
     fun he h => step_of_not_accepted hrst he h,
     fun hvalid hready => step_of_delivered hrst hvalid hready,
     fun hvalid hready => ⟨step_of_held hrst hvalid hready, State.sampled_rspPort _, hvalid⟩⟩

/-- Settles O11: the edge writes only the engine, the inputs and `rst`'s level. -/
theorem busyEdgesTouchNothing : Obligations.BusyEdgesTouchNothing :=
  fun s _ _ he hrst => ⟨step_of_busy he hrst, State.sampled_slots s, State.sampled_draws s⟩

/-! ### The rule of a command -/

theorem runCommand_of_ok {c : Command} {i : Instr} (h : decode c = .ok i) (s : State) :
    runCommand c s = exec i s := by
  simp only [runCommand, h]

theorem decodeTableWord_eq_some_iff {nbits w : Nat} {i : Instr} :
    decodeTableWord nbits w = some i ↔
      decode (Command.ofBits (BitVec.ofNat 96 (w % 2 ^ nbits))) = .ok i := by
  unfold decodeTableWord
  cases decode (Command.ofBits (BitVec.ofNat 96 (w % 2 ^ nbits))) <;> simp

theorem step_of_decoded {s : State} {c : Command} {i : Instr} (he : s.engine = .busy c 0)
    (hrst : s.portIn.rst = false) (hc : decode c = .ok i) : step s = exec i s.sampled :=
  (step_of_busy_last he hrst).trans (runCommand_of_ok hc s.sampled)

/-- Settles O7: a busy engine at its last cycle runs the decoded command, and `withFetchWord` (log 10)
places the table word's command as one at its last cycle with reset low. -/
theorem stepRunsTheDecodedCommand : Obligations.StepRunsTheDecodedCommand :=
  ⟨fun _ _ _ he hrst hc => step_of_decoded he hrst hc,
   fun s _ _ _ hw =>
    step_of_decoded (State.loadCommand_engine s _) rfl (decodeTableWord_eq_some_iff.mp hw)⟩

/-! ### Reset (R230) -/

/-- While `rst` is held no command is taken (R240). -/
theorem State.cmdReady_of_rstHeld {s : State} (h : s.rstHeld = true) : s.cmdReady = false := by
  rw [Bool.eq_false_iff, ne_eq, State.cmdReady_iff, h]
  simp

theorem State.rspValid_of_idle {s : State} (he : s.engine = .idle) : s.rspValid = false := by
  simp [State.rspValid, he]

/-- An idle engine is ready after an edge with `rst` low (R240). -/
theorem State.cmdReady_sampled {s : State} (he : s.engine = .idle) (hrst : s.portIn.rst = false) :
    s.sampled.cmdReady = true := State.cmdReady_iff.mpr ⟨he, hrst⟩

/-- Reset leaves every slot unallocated (R31, R230). -/
theorem valid_of_mem_resetEdge_slots {s : State} {sl : Slot} (h : sl ∈ (resetEdge s).slots) :
    sl.valid = false := by
  obtain ⟨-, -, rfl⟩ := List.mem_map.mp h
  rfl

/-- Settles O12: the reset edge keeps `rst`'s level, so no command is ready at the next edge, and that
edge, with `rst` low, only samples its inputs. -/
theorem resetEdgeLeavesTheResetState : Obligations.ResetEdgeLeavesTheResetState := by
  intro s hrst
  have hheld : (resetEdge s.sampled).cmdReady = false := State.cmdReady_of_rstHeld hrst
  refine ⟨resetEdge s.sampled, step_of_rst hrst, hheld, State.rspValid_of_idle rfl, fun hlow => ?_⟩
  exact ⟨_, step_of_not_accepted hlow rfl (.inl hheld), rfl, State.cmdReady_sampled rfl hlow,
    State.rspValid_of_idle rfl, fun _ hsl => valid_of_mem_resetEdge_slots hsl,
    resetEdge_numSlots s.sampled, rfl⟩

/-! ### Every accepted command responds (R251) -/

/-- No coming edge has `rst` at 1. -/
def State.NoResetComing (s : State) : Prop := ∀ p ∈ s.inputs, p.rst = false

theorem State.NoResetComing.portIn_rst {s : State} (h : s.NoResetComing) :
    s.portIn.rst = false := by
  unfold State.portIn
  cases hi : s.inputs with
  | nil => rfl
  | cons p ps => exact h p (by simp [hi])

/-- An edge uses up its own inputs, so what comes after it is among what was to come. -/
theorem State.NoResetComing.of_inputs_eq_tail {s t : State} (h : s.NoResetComing)
    (ht : t.inputs = s.inputs.tail) : t.NoResetComing := by
  intro p hp
  rw [ht] at hp
  exact h p (List.mem_of_mem_tail hp)

theorem run_succ_of_step {M : Host.Core} {k : Nat} {s t : M.State} (h : M.step s = .next t) :
    M.run (k + 1) s = M.run k t := by
  simp only [Host.Core.run, h]

/-- One more step at the end of a run. -/
theorem run_succ_of_run {M : Host.Core} {k : Nat} {s u t : M.State} (h : M.run k s = .next u)
    (hu : M.step u = .next t) : M.run (k + 1) s = .next t := by
  induction k generalizing s with
  | zero =>
    cases h
    rw [run_succ_of_step hu, Host.Core.run]
  | succ k ih =>
    cases hs : M.step s with
    | next s' =>
      rw [run_succ_of_step hs] at h ⊢
      exact ih h
    | fault r | refused r => simp [Host.Core.run, hs] at h

/-- Without reset a busy engine comes to its last cycle, the slots untouched (R242). -/
theorem run_of_busy {c : Command} {n : Nat} {s : State} (he : s.engine = .busy c n)
    (hno : s.NoResetComing) :
    ∃ u : State, Host.Core.run core n s = .next u ∧ u.engine = .busy c 0 ∧ u.slots = s.slots ∧
      u.maxLen = s.maxLen ∧ u.NoResetComing := by
  induction n generalizing s with
  | zero => exact ⟨s, rfl, he, rfl, rfl, hno⟩
  | succ n ih =>
    have hstep : core.step s = .next (s.sampled.setEngine (.busy c n)) :=
      step_of_busy he hno.portIn_rst
    rw [run_succ_of_step hstep]
    exact ih rfl (hno.of_inputs_eq_tail rfl)

/-- Settles O14: acceptance draws a finite latency, the engine counts it down, and the rule at the last
cycle ends in a response. -/
theorem everyAcceptedCommandResponds : Obligations.EveryAcceptedCommandResponds := by
  intro s hready hvalid hno
  have hs : s.NoResetComing := hno
  have haccept : core.step s = .next (accept s.portIn.cmd s.sampled) :=
    step_of_accepted hs.portIn_rst hready hvalid
  obtain ⟨u, hrun, hbusy, hslots, hmax, hu⟩ :=
    run_of_busy (accept_engine s.portIn.cmd s.sampled) (hs.of_inputs_eq_tail rfl)
  obtain ⟨slots, k, st, d, -, hrule⟩ := runCommand_endsInResponse s.portIn.cmd u.sampled
  have hlast := (step_of_busy_last hbusy hu.portIn_rst).trans hrule
  have hrun' := (run_succ_of_step haccept).trans hrun
  exact ⟨_, u, _, st, d, hrun', hbusy, hslots, hmax, run_succ_of_run hrun' hlast, hrule, rfl⟩

end Sys2Proof.Machine
end
